-- ==== Sys2Proof/Word.lean ====
section
/-! DEFINITION. The byte and the register number: the two plain types every other file is written over. -/

namespace Sys2Proof

/-- An unsigned 8-bit value (00_scope.md R13): a register, a memory cell, an instruction byte, and an address of the
256-cell memory (20_memory.md R50: an address is an integer 0..255). -/
abbrev Byte := BitVec 8

/-- The number of a register, 0..7 (10_state.md R20). -/
abbrev RegIdx := Fin 8

/-- The operand byte that names register `r` (30_encoding.md R92: `00` to `07`). -/
abbrev regByte (r : RegIdx) : Byte := BitVec.ofNat 8 r.val

end Sys2Proof
end

