-- ==== Sys2Proof/Syntax.lean ====
section
/-! DEFINITION. The instructions as syntax: one constructor per row of opcode_table.json. -/

namespace Sys2Proof

/-- The eight rows of the dispatch table (30_encoding.md R86; 40_execution_cycle.md R114 asks for an eight-constructor
type). An operand byte is kept WHOLE, also where it is a register number: a byte above 7 there is an instruction the
core executes, by raising RegisterIndexOutOfRange (30_encoding.md R82, R90). -/
inductive Instr where
  /-- HALT, format Z (R130). -/
  | halt
  /-- LOAD-IMMEDIATE, format RI: `a` the destination register byte, `imm` the literal (R135). -/
  | loadImmediate (a imm : Byte)
  /-- PRINT-REGISTER, format R: `a` the source register byte (R136). -/
  | printRegister (a : Byte)
  /-- ADD, format RR: `a` destination and first source, `b` second source (R147). -/
  | add (a b : Byte)
  /-- MULTIPLY, format RR: `a` destination and first source, `b` second source (R148). -/
  | multiply (a b : Byte)
  /-- PUSH, format R: `a` the source register byte (R161). -/
  | push (a : Byte)
  /-- POP, format R: `a` the destination register byte (R162). -/
  | pop (a : Byte)
  /-- UNRECOGNIZED, format Z: `op` is the opcode byte that matched no other row (R175). Nothing reads it but the encoder. -/
  | unrecognized (op : Byte)
deriving DecidableEq, Repr

end Sys2Proof
end

