-- ==== Sys2Proof/WellFormed.lean ====
section
/-! DEFINITION. Which terms of `Instr` stand for an instruction of the machine, and which name registers that exist. -/

namespace Sys2Proof

/-- The seven recognised opcode bytes, in the order 30_encoding.md R88 lists them. -/
def recognizedOpcodes : List Byte := [0x01, 0x45, 0x46, 0x47, 0x82, 0xA0, 0xA2]

/-- A term is an instruction of the machine unless it calls a recognised opcode UNRECOGNIZED (30_encoding.md R88). Every
operand byte is allowed: one above 7 in a register position is executed and raises (R90). -/
def Instr.wf : Instr → Bool
  | .halt => true
  | .loadImmediate _ _ => true
  | .printRegister _ => true
  | .add _ _ => true
  | .multiply _ _ => true
  | .push _ => true
  | .pop _ => true
  | .unrecognized op => !recognizedOpcodes.contains op

/-- The operand bytes in a register position, in the order they are checked (30_encoding.md R82, R83, R90). LOAD-IMMEDIATE's
second operand is a literal and is not among them. -/
def Instr.registerBytes : Instr → List Byte
  | .halt => []
  | .loadImmediate a _ => [a]
  | .printRegister a => [a]
  | .add a b => [a, b]
  | .multiply a b => [a, b]
  | .push a => [a]
  | .pop a => [a]
  | .unrecognized _ => []

/-- Every register operand byte is 0..7 (30_encoding.md R82): the operands R92's assembly syntax can write. -/
def Instr.registersExist (i : Instr) : Bool := i.registerBytes.all fun a => decide (a.toNat < 8)

end Sys2Proof
end

