-- ==== Sys2Proof/Decode.lean ====
section
/-! DEFINITION. The decoder (30_encoding.md R80 to R91, 40_execution_cycle.md R114), the encoder from the same table, and
the decoder on a word numbered as opcode_table.json numbers it. -/

namespace Sys2Proof

/-- Why a list of bytes is no instruction. Bytes fetched by the core never are: they are three, and the dispatch is total
(40_execution_cycle.md R114). -/
inductive DecodeReject where
  /-- There is no opcode byte. -/
  | noOpcode
  /-- The opcode `op` has more operand bytes than are there (30_encoding.md R81). -/
  | operandMissing (op : Byte)
deriving DecidableEq, Repr

/-- Decode and dispatch on the fetched triple, by exact equality of the whole opcode byte (30_encoding.md R85, R86). Total:
any other byte is UNRECOGNIZED (R88). Operand bytes beyond the format are dropped (R91). -/
def decodeTriple (op a b : Byte) : Instr :=
  if op = 0x01 then .halt
  else if op = 0x82 then .loadImmediate a b
  else if op = 0x47 then .printRegister a
  else if op = 0xA0 then .add a b
  else if op = 0xA2 then .multiply a b
  else if op = 0x45 then .push a
  else if op = 0x46 then .pop a
  else .unrecognized op

/-- Length in bytes, which is also the pc advance (30_encoding.md R87; the table's `length` column). -/
def Instr.length : Instr → Nat
  | .halt => 1
  | .loadImmediate _ _ => 3
  | .printRegister _ => 2
  | .add _ _ => 3
  | .multiply _ _ => 3
  | .push _ => 2
  | .pop _ => 2
  | .unrecognized _ => 1

/-- Decode the first instruction of a list of bytes, opcode first (30_encoding.md R80), and give the bytes after it. -/
def decode : List Byte → Except DecodeReject (Instr × List Byte)
  | [] => .error .noOpcode
  | op :: rest =>
    let i := decodeTriple op (rest.getD 0 0) (rest.getD 1 0)
    if rest.length + 1 < i.length then .error (.operandMissing op)
    else .ok (i, rest.drop (i.length - 1))

/-- The bytes of an instruction in address order (30_encoding.md R86, R92; the table's `encoding` column). -/
def encode : Instr → List Byte
  | .halt => [0x01]
  | .loadImmediate a imm => [0x82, a, imm]
  | .printRegister a => [0x47, a]
  | .add a b => [0xA0, a, b]
  | .multiply a b => [0xA2, a, b]
  | .push a => [0x45, a]
  | .pop a => [0x46, a]
  | .unrecognized op => [op]

/-- Byte `k` of an instruction whose bits are `w`, numbered from bit 0 of the first byte, with the bits from `nbits` up
taken as 0. -/
def tableByte (nbits w k : Nat) : Byte := BitVec.ofNat 8 (w % 2 ^ nbits / 2 ^ (8 * k))

/-- The bytes of such a word in address order, up to the longest instruction (three bytes, 30_encoding.md R80). -/
def tableBytes (nbits w : Nat) : List Byte := [tableByte nbits w 0, tableByte nbits w 1, tableByte nbits w 2]

/-- What the decoder reads from an instruction whose bits are `w`, numbered as opcode_table.json numbers them. -/
def decodeTableWord (nbits w : Nat) : Option Instr :=
  match decode (tableBytes nbits w) with
  | .ok (i, _) => some i
  | .error _ => none

end Sys2Proof
end

