-- ==== Sys2Proof/Config.lean ====
section
/-! DEFINITION. The parameters of 00_scope.md R6. "no source allows any other value, so they are fixed": plain constants.
There is no free value: 40_execution_cycle.md R119 ("no random or unspecified value"). -/

namespace Sys2Proof.Config

/-- `SP_INDEX`: the register PUSH and POP use as the stack pointer (00_scope.md R6). -/
abbrev spIndex : RegIdx := 7

/-- `SP_RESET`: the reset value of register 7 (00_scope.md R6, 10_state.md R33). -/
abbrev spReset : Byte := 0xF4

/-- `MEM_SIZE`: the number of memory cells (00_scope.md R6). -/
abbrev memSize : Nat := 256

/-- `FETCH_BYTES`: the bytes every fetch reads (00_scope.md R6, 40_execution_cycle.md R112). -/
abbrev fetchBytes : Nat := 3

/-- The largest `pc` at which a fetch stays inside memory, `MEM_SIZE - FETCH_BYTES` (40_execution_cycle.md R113). -/
abbrev lastFetchPc : Nat := 253

/-- `PC_RESET` (00_scope.md R6). -/
abbrev pcReset : Nat := 0

/-- `PC_MAX`: the largest value the pc can reach (00_scope.md R6, 10_state.md R23). -/
abbrev pcMax : Nat := 256

/-- `LOAD_BASE`: the address of the first image byte (00_scope.md R6). -/
abbrev loadBase : Nat := 0

/-- `IMAGE_MAX`: the longest image `load` accepts (00_scope.md R6, 20_memory.md R66). -/
abbrev imageMax : Nat := 256

end Sys2Proof.Config
end

