-- ==== Sys2Proof/Machine/State.lean ====
section
/-! DEFINITION. The state of the core as plain data (10_state.md), the state after reset, and the reasons a step can stop. -/

namespace Sys2Proof.Machine

open Sys2Proof

/-- The run-time conditions of 60_exceptions.md R182, all five rows. Code 0 is an event; code 4 no opcode can reach (R187). -/
inductive Condition where
  | unrecognizedOpcode
  | fetchOutOfRange
  | registerIndexOutOfRange
  | stackOutOfRange
  | unsupportedAluOperation
deriving DecidableEq, Repr

/-- The causes a step can latch: the fatal rows of 60_exceptions.md R182 that a step can reach. UnsupportedAluOperation is
not among them, because the ALU's tag is a closed type (43_alu.md R149: "need no failure arm"). -/
inductive FaultCause where
  | fetchOutOfRange
  | registerIndexOutOfRange
  | stackOutOfRange
deriving DecidableEq, Repr

/-- The record the fault latch holds: `(cause, pc, info)` (60_exceptions.md R189). -/
structure FaultRecord where
  cause : FaultCause
  pc : Nat
  info : Nat
deriving DecidableEq, Repr

/-- Memory (10_state.md R27): the cells that do not hold 0, by rising address. A cell that is not listed holds 0, its reset
value (R33). `Memory.wf` in Machine/Ops.lean is the canonical form. -/
abbrev Memory := List Host.Cell

/-- The whole state of the core (10_state.md section 0 and R20, R23, R25, R26, R27), with the two event histories, which are
the model's record of what the core has emitted (R32, log 3), and the record that the image has been loaded (log 7). -/
structure State where
  /-- `x[0..7]` (R20). -/
  regs : Vector Byte 8
  /-- The program counter; 0..256 in every reachable state, and never wrapping (R23, log 4). -/
  pc : Nat
  /-- The running flag (R25). -/
  running : Bool
  /-- The fault latch (R26). -/
  fault : Option FaultRecord
  /-- `M[0..255]` (R27). -/
  mem : Memory
  /-- The `out` history, oldest first (00_scope.md R10). -/
  out : List Byte
  /-- The `diag` history, oldest first (00_scope.md R11). -/
  diag : List Nat
  /-- Has `load` been performed since reset (20_memory.md R64: "performed once, after `reset`")? The model's record of where the
  host is in 70_reset_and_hazards.md R212's order of events; `load` alone sets it, reset clears it, no instruction reads or
  writes it (log 7). -/
  loaded : Bool
deriving DecidableEq, Repr

/-- Why `step` takes no step. Neither stands for an instruction without a meaning: both are 40_execution_cycle.md R110's
"otherwise take no step", which the host's interface can only say with this outcome (log 2). -/
inductive Fault where
  /-- Answered by `step` alone, in a final state: `running = false` and `fault = none` (00_scope.md R17), the normal end of
  a run. Safe: the core takes no further step (40_execution_cycle.md R117). -/
  | halted
  /-- Answered by `step` alone, in a faulted state: the latch holds `r` (00_scope.md R17). Safe: the core takes no further
  step (40_execution_cycle.md R118; 93_implementation_defined.md: a fault outcome carrying `(cause, pc, info)`). -/
  | faulted (r : FaultRecord)
deriving DecidableEq, Repr

/-- What the model gives no meaning. No instruction is refused. -/
inductive Refusal where
  /-- Answered by `exec` for an instruction that has no meaning yet. No arm uses it. Safe: it stops. -/
  | notModelled (mnemonic : String)
  /-- Answered by `load` alone: the image has `n` bytes, more than memory holds (20_memory.md R66: "refused"). Safe: no run
  starts. -/
  | imageTooLong (n : Nat)
  /-- Answered by `load` alone: the machine is not as reset leaves it, because `load` has been performed, or a step has been
  taken (20_memory.md R64: "performed once", and "not available while the core runs or after it has stopped"; log 7). Safe: no
  run starts. -/
  | loadNotAfterReset
deriving DecidableEq, Repr

/-- What a meaning, a step and a `load` answer. -/
abbrev Result := Host.Outcome State Fault Refusal

/-- The machine right after reset: every value is the spec's (10_state.md R33, 70_reset_and_hazards.md R210). -/
def State.reset : State where
  regs := #v[0, 0, 0, 0, 0, 0, 0, Config.spReset]
  pc := Config.pcReset
  running := true
  fault := none
  mem := []
  out := []
  diag := []
  loaded := false

end Sys2Proof.Machine
end

