-- ==== Sys2Proof/Machine/Ops.lean ====
section
/-! DEFINITION. The named operations over registers, memory, the pc and the event histories (00_scope.md R14 to R16), taking a
fault, and the fetch. -/

namespace Sys2Proof.Machine

open Sys2Proof

/-- `x[i]` (00_scope.md R14). No register is hard-wired (10_state.md R20). -/
def State.reg (s : State) (r : RegIdx) : Byte := s.regs[r]

/-- `x[i] <- v` (00_scope.md R14). -/
def State.setReg (s : State) (r : RegIdx) (v : Byte) : State := { s with regs := s.regs.set r v }

/-- The byte held at address `a`; a cell that is not listed holds 0 (10_state.md R33). -/
def Memory.cellAt : Memory → Nat → Byte
  | [], _ => 0
  | (b, v) :: rest, a => if a = b then v else Memory.cellAt rest a

/-- Put a cell into a list of cells, before the first cell of a higher address. -/
def Memory.insertCell : Memory → Nat → Byte → Memory
  | [], a, v => [(a, v)]
  | (b, w) :: rest, a, v => if a < b then (a, v) :: (b, w) :: rest else (b, w) :: Memory.insertCell rest a v

/-- `MemRead(a, 1)` (00_scope.md R15). An address is a byte, so one outside memory cannot be asked for (20_memory.md R51). It
changes nothing (R56). -/
def Memory.read (m : Memory) (a : Byte) : Byte := Memory.cellAt m a.toNat

/-- `MemWrite(a, 1, v)` (00_scope.md R15): that one cell, nothing else (20_memory.md R56). Writing 0 removes the entry. -/
def Memory.write (m : Memory) (a v : Byte) : Memory :=
  let others := m.filter fun c => decide (c.1 ≠ a.toNat)
  if v = 0 then others else Memory.insertCell others a.toNat v

/-- The canonical form: addresses strictly rising and below 256, no listed cell holding the 0 an unlisted one reads as. -/
abbrev Memory.wf (m : Memory) : Prop :=
  m.Pairwise (fun c d => c.1 < d.1) ∧ ∀ c ∈ m, c.1 < Config.memSize ∧ c.2 ≠ 0

/-- Write a sequence of bytes from address `k` upward, one per address (20_memory.md R64). -/
def Memory.writeFrom : Memory → Nat → List Byte → Memory
  | m, _, [] => m
  | m, k, v :: rest => Memory.writeFrom (m.write (BitVec.ofNat 8 k) v) (k + 1) rest

/-- `MemRead` on the state. -/
def State.memRead (s : State) (a : Byte) : Byte := s.mem.read a

/-- `MemWrite` on the state. -/
def State.memWrite (s : State) (a v : Byte) : State := { s with mem := s.mem.write a v }

/-- `emit out(v)` (00_scope.md R16): append to the `out` history. -/
def State.emitOut (s : State) (v : Byte) : State := { s with out := s.out ++ [v] }

/-- `emit diag(p)` (00_scope.md R16): append to the `diag` history. -/
def State.emitDiag (s : State) (p : Nat) : State := { s with diag := s.diag ++ [p] }

/-- `pc <- pc + n`, on natural numbers, never wrapping (40_execution_cycle.md R115). -/
def State.advance (s : State) (n : Nat) : State := { s with pc := s.pc + n }

/-- The row of 60_exceptions.md R182 a cause stands for. -/
def FaultCause.condition : FaultCause → Condition
  | .fetchOutOfRange => .fetchOutOfRange
  | .registerIndexOutOfRange => .registerIndexOutOfRange
  | .stackOutOfRange => .stackOutOfRange

/-- The code column of 60_exceptions.md R182. Nothing in the machine reads it. -/
def Condition.code : Condition → Nat
  | .unrecognizedOpcode => 0
  | .fetchOutOfRange => 1
  | .registerIndexOutOfRange => 2
  | .stackOutOfRange => 3
  | .unsupportedAluOperation => 4

/-- The kind column of 60_exceptions.md R182: does the condition end the run? -/
def Condition.isFatal : Condition → Bool
  | .unrecognizedOpcode => false
  | .fetchOutOfRange => true
  | .registerIndexOutOfRange => true
  | .stackOutOfRange => true
  | .unsupportedAluOperation => true

/-- TAKING A FAULT, `raise <Fault>(info)` (00_scope.md R16, 60_exceptions.md R189): the latch takes the cause, the current pc
and the info; nothing else changes. Control goes nowhere, and there is no return from a fault (R181, R190), so no operation
stands beside this one: only reset clears the latch. -/
def State.raise (s : State) (cause : FaultCause) (info : Nat) : State :=
  { s with fault := some ⟨cause, s.pc, info⟩ }

/-- Byte `k` of the fetch, `M[pc + k]` (40_execution_cycle.md R112). Read only with `pc <= 253` and `k <= 2`, so the address
is below 256 and the conversion loses nothing. -/
def State.fetchByte (s : State) (k : Nat) : Byte := s.memRead (BitVec.ofNat 8 (s.pc + k))

/-- Do the three fetch addresses exist (40_execution_cycle.md R113)? -/
def State.fetchInRange (s : State) : Bool := decide (s.pc ≤ Config.lastFetchPc)

/-- Place three bytes where the next fetch reads (`pc`, `pc+1`, `pc+2`); where those addresses do not exist, place nothing. -/
def State.placeAtFetch (s : State) (b0 b1 b2 : Byte) : State :=
  if s.fetchInRange then
    ((s.memWrite (BitVec.ofNat 8 s.pc) b0).memWrite (BitVec.ofNat 8 (s.pc + 1)) b1).memWrite (BitVec.ofNat 8 (s.pc + 2)) b2
  else s

end Sys2Proof.Machine
end

