-- ==== Sys2Proof/Machine/Operands.lean ====
section
/-! DEFINITION. The operand forms (30_encoding.md section 2): a register byte, two register bytes, a literal, and the two
implicit stack operands. -/

namespace Sys2Proof.Machine

open Sys2Proof

/-- The register an operand byte names: the whole byte is the index, only 0..7 name one, nothing is masked (30_encoding.md R82). -/
def regIndex? (a : Byte) : Option RegIdx := if h : a.toNat < 8 then some ⟨a.toNat, h⟩ else none

/-- Form R and RI: check operand A, then go on (30_encoding.md R90). A byte above 7 raises and the instruction does nothing
else. -/
def withReg (a : Byte) (s : State) (go : RegIdx → Result) : Result :=
  match regIndex? a with
  | some r => go r
  | none => .next (s.raise .registerIndexOutOfRange a.toNat)

/-- Form RR: check operand A, then operand B, then go on (30_encoding.md R90). -/
def withRegs (a b : Byte) (s : State) (go : RegIdx → RegIdx → Result) : Result :=
  withReg a s fun ra => withReg b s fun rb => go ra rb

/-- The literal of LOAD-IMMEDIATE: the byte as it stands (30_encoding.md R84). -/
def literal (imm : Byte) : Byte := imm

/-- The stack pointer, `x[7]` (10_state.md R22). -/
def State.sp (s : State) : Byte := s.reg Config.spIndex

/-- The address PUSH stores to: the decremented stack pointer (44_stack.md R161; used only with `x[7] != 0`). -/
def pushAddress (s : State) : Byte := s.sp - 1

/-- The address POP loads from: the stack pointer (44_stack.md R162). -/
def popAddress (s : State) : Byte := s.sp

end Sys2Proof.Machine
end

