-- ==== Sys2Proof/Machine/Alu.lean ====
section
/-! DEFINITION. The ALU and the meanings of ADD and MULTIPLY (43_alu.md). -/

namespace Sys2Proof.Machine

open Sys2Proof

/-- The ALU's operation tag, closed (43_alu.md R145, R149): a tag outside the two cannot be written down. -/
inductive AluOp where
  | add
  | multiply
deriving DecidableEq, Repr

/-- The exact natural-number result, and its remainder modulo 256, that is its low 8 bits (43_alu.md R146). -/
def aluResult (op : AluOp) (x y : Byte) : Byte :=
  match op with
  | .add => BitVec.ofNat 8 (x.toNat + y.toNat)
  | .multiply => BitVec.ofNat 8 (x.toNat * y.toNat)

/-- `reg[a] = reg[a] OP reg[b]`, and nothing else (43_alu.md R145). Both sources are read before the write. -/
def State.alu (s : State) (op : AluOp) (ra rb : RegIdx) : State := s.setReg ra (aluResult op (s.reg ra) (s.reg rb))

/-- ADD (43_alu.md R147). -/
def execAdd (a b : Byte) (s : State) : Result :=
  withRegs a b s fun ra rb => .next ((s.alu .add ra rb).advance 3)

/-- MULTIPLY (43_alu.md R148). -/
def execMultiply (a b : Byte) (s : State) : Result :=
  withRegs a b s fun ra rb => .next ((s.alu .multiply ra rb).advance 3)

end Sys2Proof.Machine
end

