-- ==== Sys2Proof/Machine/Flags.lean ====
section
/-! DEFINITION. The flags. There are no condition codes, no carry, zero, sign or overflow flag, and no instruction computes one
(10_state.md R28): the one flag of the core is the running flag (R25), and what it and the latch let happen is here. -/

namespace Sys2Proof.Machine

open Sys2Proof

/-- `running <- false`, the one write of the running flag a step can make (10_state.md R25). -/
def State.clearRunning (s : State) : State := { s with running := false }

/-- The condition the control loop tests before every step: `running = true and fault = none` (40_execution_cycle.md R110). -/
def State.mayStep (s : State) : Bool := s.running && s.fault.isNone

/-- Why a core takes no step, if it takes none (40_execution_cycle.md R117, R118). The latch is looked at first: a faulted
state is not final (00_scope.md R17). -/
def State.stopReason (s : State) : Option Fault :=
  match s.fault with
  | some r => some (.faulted r)
  | none => if s.running then none else some .halted

end Sys2Proof.Machine
end

