-- ==== Sys2Proof/Machine/Control.lean ====
section
/-! DEFINITION. The meaning of HALT (41_halt.md). -/

namespace Sys2Proof.Machine

open Sys2Proof

/-- HALT (41_halt.md R130): the running flag is cleared, and the pc advances as after any instruction. -/
def execHalt (s : State) : Result := .next (s.clearRunning.advance 1)

end Sys2Proof.Machine
end

