-- ==== Sys2Proof/Machine/DataMovement.lean ====
section
/-! DEFINITION. The meanings of LOAD-IMMEDIATE and PRINT-REGISTER (42_data_movement.md). -/

namespace Sys2Proof.Machine

open Sys2Proof

/-- LOAD-IMMEDIATE (42_data_movement.md R135). -/
def execLoadImmediate (a imm : Byte) (s : State) : Result :=
  withReg a s fun ra => .next ((s.setReg ra (literal imm)).advance 3)

/-- PRINT-REGISTER (42_data_movement.md R136). The output always accepts the event at once. -/
def execPrintRegister (a : Byte) (s : State) : Result :=
  withReg a s fun ra => .next ((s.emitOut (s.reg ra)).advance 2)

end Sys2Proof.Machine
end

