-- ==== Sys2Proof/Machine/Stack.lean ====
section
/-! DEFINITION. The meanings of PUSH and POP (44_stack.md). -/

namespace Sys2Proof.Machine

open Sys2Proof

/-- PUSH once its register is known (44_stack.md R161): the decrement first, so that PUSH R7 stores the decremented stack
pointer; `x[7] = 0` raises and does nothing else (R163). -/
def pushReg (ra : RegIdx) (s : State) : State :=
  if s.sp = 0 then s.raise .stackOutOfRange 0
  else
    let s1 := s.setReg Config.spIndex (pushAddress s)
    (s1.memWrite (pushAddress s) (s1.reg ra)).advance 2

/-- The value `reg[7] += 1` would produce in POP, after the load into `x[a]` (44_stack.md R162): POP R7 increments the loaded
byte. It may be 256. -/
def popIncrement (ra : RegIdx) (s : State) : Nat :=
  (if ra = Config.spIndex then s.memRead (popAddress s) else s.sp).toNat + 1

/-- POP once its register is known (44_stack.md R162): the load first, the increment second; an increment to 256 raises and
does nothing else (R163). -/
def popReg (ra : RegIdx) (s : State) : State :=
  if 255 < popIncrement ra s then s.raise .stackOutOfRange 255
  else
    ((s.setReg ra (s.memRead (popAddress s))).setReg Config.spIndex (BitVec.ofNat 8 (popIncrement ra s))).advance 2

/-- PUSH (44_stack.md R161). -/
def execPush (a : Byte) (s : State) : Result := withReg a s fun ra => .next (pushReg ra s)

/-- POP (44_stack.md R162). -/
def execPop (a : Byte) (s : State) : Result := withReg a s fun ra => .next (popReg ra s)

end Sys2Proof.Machine
end

