-- ==== Sys2Proof/Machine/Unrecognized.lean ====
section
/-! DEFINITION. The meaning of UNRECOGNIZED (45_unrecognized.md). -/

namespace Sys2Proof.Machine

open Sys2Proof

/-- UNRECOGNIZED (45_unrecognized.md R175): the pc is reported, not the opcode byte, and one byte is skipped. -/
def execUnrecognized (_op : Byte) (s : State) : Result := .next ((s.emitDiag s.pc).advance 1)

end Sys2Proof.Machine
end

