-- ==== Sys2Proof/Machine/Cycle.lean ====
section
/-! DEFINITION. One step of the control loop (40_execution_cycle.md R110 to R115). -/

namespace Sys2Proof.Machine

open Sys2Proof

/-- The instruction the fetch reads: three bytes, always, before the opcode is looked at (40_execution_cycle.md R112). -/
def State.fetched (s : State) : Instr := decodeTriple (s.fetchByte 0) (s.fetchByte 1) (s.fetchByte 2)

/-- One pass of the loop (40_execution_cycle.md R110, R111): no step when the core has stopped; FetchOutOfRange before any
memory is read (R113); else the fetched instruction's arm, which advances the pc (R115). -/
def cycle (s : State) : Result :=
  match s.stopReason with
  | some r => .fault r
  | none =>
    if s.fetchInRange then exec s.fetched s
    else .next (s.raise .fetchOutOfRange s.pc)

end Sys2Proof.Machine
end

