-- ==== Sys2Proof/Machine/Step.lean ====
section
/-! DEFINITION. The step of the host's interface, and placing an instruction where it fetches. -/

namespace Sys2Proof.Machine

open Sys2Proof

/-- One step (00_scope.md R17, 40_execution_cycle.md R111), total over all states. -/
def step (s : State) : Host.Outcome State Fault Refusal := cycle s

/-- `s` with the instruction whose bits are `w` (numbered as opcode_table.json numbers them) in the three cells the next
fetch reads. Nothing else changes: the core fetches at its pc (40_execution_cycle.md R112; log 9). -/
def State.withFetchWord (s : State) (nbits w : Nat) : State :=
  s.placeAtFetch (tableByte nbits w 0) (tableByte nbits w 1) (tableByte nbits w 2)

end Sys2Proof.Machine
end

