-- ==== Sys2Proof/Machine/Interface.lean ====
section
/-! DEFINITION. The host's side of the core (00_scope.md section 5): reset, load, run, status. -/

namespace Sys2Proof.Machine

open Sys2Proof

/-- The `reset` input (00_scope.md R7): every piece of state takes its reset value, whatever it was. -/
def resetInput (_s : State) : State := State.reset

/-- The `load(image)` input (20_memory.md R64, R65): the image's bytes from address 0 upward, nothing else of the core. It is
performed once, after reset and before the first step, which is exactly where the state is the reset state: a load, of
whatever image, leaves `loaded` set, and a step never leads back to the reset state (log 7). An image that does not fit is
refused (R66), and has not loaded the machine. -/
def load (image : List Byte) (s : State) : Result :=
  if s ≠ State.reset then .refused .loadNotAfterReset
  else if Config.imageMax < image.length then .refused (.imageTooLong image.length)
  else .next { s with mem := s.mem.writeFrom Config.loadBase image, loaded := true }

/-- Reset, then load (70_reset_and_hazards.md R212): the state in which `run` begins. -/
def launch (image : List Byte) : Result := load image State.reset

/-- The `run` input: the control loop (40_execution_cycle.md R110), with `fuel` step attempts at most. It tests the condition
before every step and takes no step once it fails. R120: 255 attempts lose no run. -/
def run : Nat → State → Result
  | 0, s => .next s
  | fuel + 1, s =>
    if s.mayStep then
      match step s with
      | .next t => run fuel t
      | .fault r => .fault r
      | .refused r => .refused r
    else .next s

/-- What the `status` output shows (00_scope.md R12). -/
structure Status where
  running : Bool
  fault : Option FaultRecord
deriving DecidableEq, Repr

/-- The `status` output (00_scope.md R12). -/
def State.status (s : State) : Status := ⟨s.running, s.fault⟩

end Sys2Proof.Machine
end

