-- ==== Sys2Proof/Safety.lean ====
section
/-! DEFINITION. The terms claims are made in: how a run ends, the invariant, what a step reports, which registers an
instruction writes, and the step written out as 40_execution_cycle.md R111 writes it. -/

namespace Sys2Proof

/-- The registers an instruction may write (10_state.md R21): its destination, and `x[7]` for PUSH and POP. -/
def Instr.writes : Instr → RegIdx → Prop
  | .halt, _ => False
  | .loadImmediate a _, r => a = regByte r
  | .printRegister _, _ => False
  | .add a _, r => a = regByte r
  | .multiply a _, r => a = regByte r
  | .push _, r => r = Config.spIndex
  | .pop a, r => a = regByte r ∨ r = Config.spIndex
  | .unrecognized _, _ => False

end Sys2Proof

namespace Sys2Proof.Machine

open Sys2Proof

/-- A final state: `running = false` and `fault = none` (00_scope.md R17). -/
def State.isFinal (s : State) : Bool := !s.running && s.fault.isNone

/-- A faulted state: the latch is set (00_scope.md R17). It is not final. -/
def State.isFaulted (s : State) : Bool := s.fault.isSome

/-- What the latch can hold: the pc and info column of 60_exceptions.md R182, R184 to R186. -/
def FaultRecord.consistent (r : FaultRecord) : Prop :=
  match r.cause with
  | .fetchOutOfRange => r.info = r.pc ∧ 254 ≤ r.pc ∧ r.pc ≤ 256
  | .registerIndexOutOfRange => 8 ≤ r.info ∧ r.info ≤ 255 ∧ r.pc ≤ 253
  | .stackOutOfRange => (r.info = 0 ∨ r.info = 255) ∧ r.pc ≤ 253

/-- What every reachable state satisfies. -/
structure State.Inv (s : State) : Prop where
  /-- Memory is in its canonical form. -/
  mem_wf : s.mem.wf
  /-- The pc ranges over 0..256 (10_state.md R23). -/
  pc_le : s.pc ≤ Config.pcMax
  /-- A latched fault is of the running core, at its pc, and one the spec describes (60_exceptions.md R182, R189). -/
  fault_ok : ∀ r, s.fault = some r → r.pc = s.pc ∧ s.running = true ∧ r.consistent
  /-- The `diag` history is increasing (40_execution_cycle.md R121). -/
  diag_sorted : s.diag.Pairwise (· < ·)
  /-- A `diag` event is a pc already passed, 0..253 (00_scope.md R11). -/
  diag_lt : ∀ p ∈ s.diag, p < s.pc ∧ p ≤ Config.lastFetchPc
  /-- A printed value took a two-byte instruction and a report a one-byte one (40_execution_cycle.md R115, R121). -/
  events_le : 2 * s.out.length + s.diag.length ≤ s.pc

/-- The one condition a step of a running core reports, with the value recorded, by the priority of 60_exceptions.md R188. -/
def reportedCondition (s : State) : Option (Condition × Nat) :=
  let op := s.fetchByte 0
  let a := s.fetchByte 1
  let b := s.fetchByte 2
  if 253 < s.pc then some (.fetchOutOfRange, s.pc)
  else if op ∉ recognizedOpcodes then some (.unrecognizedOpcode, s.pc)
  else if op ≠ 0x01 ∧ 7 < a.toNat then some (.registerIndexOutOfRange, a.toNat)
  else if (op = 0xA0 ∨ op = 0xA2) ∧ 7 < b.toNat then some (.registerIndexOutOfRange, b.toNat)
  else if op = 0x45 ∧ s.reg 7 = 0 then some (.stackOutOfRange, 0)
  else if op = 0x46 ∧ (if a = 7 then s.memRead (s.reg 7) else s.reg 7) = 255 then some (.stackOutOfRange, 255)
  else none

/-- An opcode byte at 254 or 255 is not executed: the step raises FetchOutOfRange, whatever the opcode is
(40_execution_cycle.md R113, cited by every instruction's rule). -/
def TopOfMemoryFaults (op : Byte) : Prop :=
  ∀ s : State, s.running = true → s.fault = none → s.pc = 254 ∨ s.pc = 255 → s.memRead (BitVec.ofNat 8 s.pc) = op →
    step s = .next { s with fault := some ⟨.fetchOutOfRange, s.pc, s.pc⟩ }

/-! The expanded pseudocode of 40_execution_cycle.md R111, line by line, on natural numbers (00_scope.md R13), with its own
reading of registers and cells: no decoder, no operand forms, no shared operations. -/

/-- `x[i]` as a number. -/
def Pseudo.x (s : State) (i : Nat) : Nat := (s.regs.toList.getD i 0).toNat

/-- `x[i] <- v`. -/
def Pseudo.setX (s : State) (i v : Nat) : State := { s with regs := s.regs.setIfInBounds i (BitVec.ofNat 8 v) }

/-- `M[k]` as a number. -/
def Pseudo.m (s : State) (k : Nat) : Nat := (Memory.cellAt s.mem k).toNat

/-- `MemWrite(k, 1, v)`. -/
def Pseudo.setM (s : State) (k v : Nat) : State := { s with mem := s.mem.write (BitVec.ofNat 8 k) (BitVec.ofNat 8 v) }

/-- `raise <cause>(info)`: the pc in the record is the state's. -/
def Pseudo.fail (s : State) (cause : FaultCause) (info : Nat) : State := { s with fault := some ⟨cause, s.pc, info⟩ }

/-- `pc <- pc + n`. -/
def Pseudo.next (s : State) (n : Nat) : State := { s with pc := s.pc + n }

/-- The whole step of R111 with every arm expanded. -/
def Pseudo.step (s : State) : State :=
  if s.pc > 253 then Pseudo.fail s .fetchOutOfRange s.pc
  else
    let op := Pseudo.m s s.pc
    let a := Pseudo.m s (s.pc + 1)
    let b := Pseudo.m s (s.pc + 2)
    if op = 0x01 then Pseudo.next { s with running := false } 1
    else if op = 0x82 then
      if a > 7 then Pseudo.fail s .registerIndexOutOfRange a
      else Pseudo.next (Pseudo.setX s a b) 3
    else if op = 0x47 then
      if a > 7 then Pseudo.fail s .registerIndexOutOfRange a
      else Pseudo.next { s with out := s.out ++ [BitVec.ofNat 8 (Pseudo.x s a)] } 2
    else if op = 0xA0 then
      if a > 7 then Pseudo.fail s .registerIndexOutOfRange a
      else if b > 7 then Pseudo.fail s .registerIndexOutOfRange b
      else Pseudo.next (Pseudo.setX s a ((Pseudo.x s a + Pseudo.x s b) % 256)) 3
    else if op = 0xA2 then
      if a > 7 then Pseudo.fail s .registerIndexOutOfRange a
      else if b > 7 then Pseudo.fail s .registerIndexOutOfRange b
      else Pseudo.next (Pseudo.setX s a ((Pseudo.x s a * Pseudo.x s b) % 256)) 3
    else if op = 0x45 then
      if a > 7 then Pseudo.fail s .registerIndexOutOfRange a
      else if Pseudo.x s 7 = 0 then Pseudo.fail s .stackOutOfRange 0
      else
        let s1 := Pseudo.setX s 7 (Pseudo.x s 7 - 1)
        Pseudo.next (Pseudo.setM s1 (Pseudo.x s1 7) (Pseudo.x s1 a)) 2
    else if op = 0x46 then
      if a > 7 then Pseudo.fail s .registerIndexOutOfRange a
      else
        let v := Pseudo.m s (Pseudo.x s 7)
        let t := (if a = 7 then v else Pseudo.x s 7) + 1
        if t > 255 then Pseudo.fail s .stackOutOfRange 255
        else Pseudo.next (Pseudo.setX (Pseudo.setX s a v) 7 t) 2
    else Pseudo.next { s with diag := s.diag ++ [s.pc] } 1

end Sys2Proof.Machine
end

