-- ==== Sys2Proof/Certificates/Slice0/Obligations.lean ====
section
/-! DEFINITION. The statements for the provers. Each follows the rules of spec/ its docstring names; regByte r is the operand
byte 0..7 that names register r, so a statement over all registers r covers every operand the encoding admits, and the bytes
above 7 are covered by the statements about RegisterIndexOutOfRange. A clause that rests on the model's choice names its log
entry. -/

open Sys2Proof Sys2Proof.Machine

/-! ### Reset and load -/

/-- 70_reset_and_hazards.md R210, 00_scope.md R7: reset establishes every value of 10_state.md R33's table, from any state. The
clause loaded = false is no row of that table: the record loaded and its reset value are the model's choice (log 7). -/
def Obligations.ResetEstablishesEveryValue : Prop :=
  ∀ s : State, (∀ r : RegIdx, (resetInput s).reg r = if r = 7 then 0xF4 else 0) ∧ (resetInput s).pc = 0 ∧
    (resetInput s).running = true ∧ (resetInput s).fault = none ∧ (∀ a : Byte, (resetInput s).memRead a = 0) ∧
    (resetInput s).out = [] ∧ (resetInput s).diag = [] ∧ (resetInput s).loaded = false ∧ resetInput s = State.reset

/-- 10_state.md R33, 20_memory.md R64, R65: an image of at most 256 bytes, the empty one included, stands from address 0
upward, every other cell is 0, and everything of the core but memory is as reset leaves it (loaded is the record that the
load has been performed, log 7). -/
def Obligations.LoadPlacesTheImage : Prop :=
  ∀ image : List Byte, image.length ≤ 256 → ∃ t, launch image = .next t ∧
    (∀ a : Byte, t.memRead a = if a.toNat < image.length then image.getD a.toNat 0 else 0) ∧
    t = { State.reset with mem := t.mem, loaded := true }

/-- 20_memory.md R66: an image longer than 256 bytes is refused, and no run starts. -/
def Obligations.LongImageIsRefused : Prop :=
  ∀ image : List Byte, 256 < image.length → launch image = .refused (.imageTooLong image.length)

/-- 20_memory.md R64 ("not available while the core runs or after it has stopped"): once a step has been taken, load is
refused. The refusal's name, and seeing the window from the state, are the model's choice (log 7). -/
def Obligations.LoadIsOverOnceTheCoreHasStepped : Prop :=
  ∀ (s t : State) (image : List Byte), step s = .next t → load image t = .refused .loadNotAfterReset

/-- 20_memory.md R64 ("performed once, after reset and before run"), 92_eei_decisions.md D13: load is accepted in the reset state
alone; once it has been, with whatever image, the empty one and one of zeros included, no second load is, neither at once nor
after any number of step attempts; and after reset it is again. The refusal's name and the record are the model's choice
(log 7). -/
def Obligations.LoadIsPerformedOnce : Prop :=
  (∀ (s t : State) (image : List Byte), load image s = .next t → s = State.reset ∧
    ∀ (k : Nat) (u : State) (again : List Byte), run k t = .next u → load again u = .refused .loadNotAfterReset) ∧
  ∀ (s : State) (image : List Byte), image.length ≤ 256 → ∃ t, load image (resetInput s) = .next t

/-! ### Encoding -/

/-- 30_encoding.md R86 (opcode column): the opcodes written out bit by bit from the table, with any operand bytes, decode to
their instructions; and one that matches no row. -/
def Obligations.TableWordsDecode : Prop :=
  ∀ a b : Byte, decode [0b00000001, a] = .ok (.halt, [a]) ∧
    decode [0b10000010, a, b] = .ok (.loadImmediate a b, []) ∧
    decode [0b01000111, a] = .ok (.printRegister a, []) ∧
    decode [0b10100000, a, b] = .ok (.add a b, []) ∧
    decode [0b10100010, a, b] = .ok (.multiply a b, []) ∧
    decode [0b01000101, a] = .ok (.push a, []) ∧
    decode [0b01000110, a] = .ok (.pop a, []) ∧
    decode [0b10000011, a] = .ok (.unrecognized 0b10000011, [a])

/-- Decode and encode agree, one way: the bytes of a well-formed instruction, followed by anything, decode to that instruction
and leave what follows (30_encoding.md R80, R81, R85, R86). -/
def Obligations.DecodeOfEncodeIsTheInstruction : Prop :=
  ∀ (i : Instr) (rest : List Byte), i.wf = true → decode (encode i ++ rest) = .ok (i, rest)

/-- Decode and encode agree, the other way: what decodes is well formed, and its encoding is the bytes it was read from
(30_encoding.md R80: "no second encoding of any instruction"). -/
def Obligations.EncodeOfDecodeIsTheBytes : Prop :=
  ∀ (bytes rest : List Byte) (i : Instr), decode bytes = .ok (i, rest) → i.wf = true ∧ bytes = encode i ++ rest

/-- 30_encoding.md R87: the length is a function of the opcode byte alone, and it is the pc advance of every arm that
completes. -/
def Obligations.LengthIsByTheOpcodeByte : Prop :=
  (∀ op a b : Byte, (decodeTriple op a b).length =
    if op = 0x01 then 1 else if op = 0x47 ∨ op = 0x45 ∨ op = 0x46 then 2
    else if op = 0x82 ∨ op = 0xA0 ∨ op = 0xA2 then 3 else 1) ∧
  ∀ (op a b : Byte) (s t : State), s.fault = none → exec (decodeTriple op a b) s = .next t → t.fault = none →
    t.pc = s.pc + (decodeTriple op a b).length

/-- 30_encoding.md R91: a byte beyond the instruction's length may hold anything (changing it leaves the fetched instruction
as it is), but its address must exist: with pc > 253 the step faults whatever memory holds. -/
def Obligations.BytesBeyondTheLengthAreIgnored : Prop :=
  (∀ (s : State) (k : Nat) (v : Byte), s.pc ≤ 253 → s.fetched.length ≤ k → k ≤ 2 →
    (s.memWrite (BitVec.ofNat 8 (s.pc + k)) v).fetched = s.fetched) ∧
  ∀ (s : State) (m : Memory), s.running = true → s.fault = none → 253 < s.pc →
    step { s with mem := m } = .next { s with mem := m, fault := some ⟨.fetchOutOfRange, s.pc, s.pc⟩ }

/-! ### The step -/

/-- 40_execution_cycle.md R111, R112: the three bytes at the pc always decode to a well-formed instruction, and the step of a
running core is that instruction's exec, with nothing around it. -/
def Obligations.StepRunsTheDecodedInstruction : Prop :=
  (∀ s : State, ∃ i rest, decode [s.memRead (BitVec.ofNat 8 s.pc), s.memRead (BitVec.ofNat 8 (s.pc + 1)),
    s.memRead (BitVec.ofNat 8 (s.pc + 2))] = .ok (i, rest) ∧ i.wf = true) ∧
  ∀ (s : State) (i : Instr) (rest : List Byte), s.running = true → s.fault = none → s.pc ≤ 253 →
    decode [s.memRead (BitVec.ofNat 8 s.pc), s.memRead (BitVec.ofNat 8 (s.pc + 1)),
      s.memRead (BitVec.ofNat 8 (s.pc + 2))] = .ok (i, rest) → i.wf = true → step s = exec i s

/-- 40_execution_cycle.md R111: the step of a running core is the rule's expanded pseudocode, line by line. -/
def Obligations.StepIsTheExpandedPseudocode : Prop :=
  ∀ s : State, s.running = true → s.fault = none → step s = .next (Pseudo.step s)

/-- 40_execution_cycle.md R110: a step is taken exactly while running = true and fault = none, at reset it is, and the loop is
that: it steps while the condition holds and otherwise leaves the state as it is. -/
def Obligations.LoopStepsExactlyWhileRunning : Prop :=
  (∀ s : State, (∃ t, step s = .next t) ↔ s.running = true ∧ s.fault = none) ∧ (∃ t, step State.reset = .next t) ∧
  (∀ (s t : State) (k : Nat), step s = .next t → run (k + 1) s = run k t) ∧
  ∀ (s : State) (k : Nat), ¬ (s.running = true ∧ s.fault = none) → run k s = .next s

/-- 40_execution_cycle.md R113: FetchOutOfRange. With pc > 253 the step latches the fault, whatever the memory and the opcode. -/
def Obligations.FetchRangeIsChecked : Prop :=
  ∀ s : State, s.running = true → s.fault = none → 253 < s.pc →
    step s = .next { s with fault := some ⟨.fetchOutOfRange, s.pc, s.pc⟩ }

/-- 40_execution_cycle.md R115 and 10_state.md R24: after an arm that did not raise the pc has advanced by the length of the
opcode just executed, strictly and without wrapping; a step that raises leaves it. -/
def Obligations.PcAdvancesByTheLength : Prop :=
  ∀ s t : State, step s = .next t →
    (t.fault = none → s.pc < t.pc ∧ t.pc = s.pc + if s.fetchByte 0 ∈ ([0x82, 0xA0, 0xA2] : List Byte) then 3
      else if s.fetchByte 0 ∈ ([0x45, 0x46, 0x47] : List Byte) then 2 else 1) ∧
    (t.fault ≠ none → t.pc = s.pc)

/-- 40_execution_cycle.md R121: at most one event per step, appended at the end: one out event of PRINT-REGISTER, one diag event
of UNRECOGNIZED, none of the other six arms, none of a step that faults. -/
def Obligations.AtMostOneEventPerStep : Prop :=
  ∀ s t : State, step s = .next t →
    (t.fault ≠ none → t.out = s.out ∧ t.diag = s.diag) ∧
    (t.fault = none → s.fetchByte 0 = 0x47 → t.diag = s.diag ∧
      ∃ r : RegIdx, s.fetchByte 1 = regByte r ∧ t.out = s.out ++ [s.reg r]) ∧
    (t.fault = none → s.fetchByte 0 ∉ recognizedOpcodes → t.out = s.out ∧ t.diag = s.diag ++ [s.pc]) ∧
    (t.fault = none → s.fetchByte 0 ∈ recognizedOpcodes → s.fetchByte 0 ≠ 0x47 → t.out = s.out ∧ t.diag = s.diag)

/-- 10_state.md R32: the histories never influence a step: with any other histories the step does the same to everything else
and appends the same events. Both are empty at reset. -/
def Obligations.HistoriesDoNotInfluenceAStep : Prop :=
  (∀ s t : State, step s = .next t → ∃ eo ed, t.out = s.out ++ eo ∧ t.diag = s.diag ++ ed ∧
    ∀ o d, step { s with out := o, diag := d } = .next { t with out := o ++ eo, diag := d ++ ed }) ∧
  State.reset.out = [] ∧ State.reset.diag = []

/-- 40_execution_cycle.md R117, R118, 60_exceptions.md R196: a core that has ended takes no step, and a halted one stays as it is.
That the attempt then answers Fault.halted, or Fault.faulted with the latch's record, is the model's choice (log 2). -/
def Obligations.EndedCoreTakesNoStep : Prop :=
  (∀ (s : State) (r : FaultRecord), s.fault = some r → step s = .fault (.faulted r)) ∧
  ∀ s : State, s.isFinal = true → step s = .fault .halted ∧ ∀ k, run k s = .next s

/-! ### The instructions: effect, completion, faults -/

/-- 41_halt.md R130. Completes in every state; the state after it is final and no step follows. -/
def Obligations.HaltStopsTheMachine : Prop :=
  (∀ a b : Byte, decodeTriple 0x01 a b = .halt) ∧
  (∀ s : State, exec .halt s = .next { s with running := false, pc := s.pc + 1 }) ∧
  (∀ s t : State, s.fault = none → exec .halt s = .next t → t.isFinal = true ∧ ∀ u, step t ≠ .next u) ∧
  TopOfMemoryFaults 0x01

/-- 42_data_movement.md R135. Completes for every register and literal, in every state. -/
def Obligations.LoadImmediateWritesTheLiteral : Prop :=
  (∀ a b : Byte, decodeTriple 0x82 a b = .loadImmediate a b) ∧
  (∀ (s : State) (r : RegIdx) (imm : Byte),
    exec (.loadImmediate (regByte r) imm) s = .next { s with regs := s.regs.set r imm, pc := s.pc + 3 }) ∧
  (∀ (s : State) (a imm : Byte), 7 < a.toNat →
    exec (.loadImmediate a imm) s = .next { s with fault := some ⟨.registerIndexOutOfRange, s.pc, a.toNat⟩ }) ∧
  TopOfMemoryFaults 0x82

/-- 42_data_movement.md R136. Completes for every register, in every state. -/
def Obligations.PrintRegisterEmitsTheValue : Prop :=
  (∀ a b : Byte, decodeTriple 0x47 a b = .printRegister a) ∧
  (∀ (s : State) (r : RegIdx),
    exec (.printRegister (regByte r)) s = .next { s with out := s.out ++ [s.regs[r]], pc := s.pc + 2 }) ∧
  (∀ (s : State) (a : Byte), 7 < a.toNat →
    exec (.printRegister a) s = .next { s with fault := some ⟨.registerIndexOutOfRange, s.pc, a.toNat⟩ }) ∧
  TopOfMemoryFaults 0x47

/-- 43_alu.md R147. Completes for every two registers, equal ones and R7 included, in every state. -/
def Obligations.AddWritesTheSumModulo256 : Prop :=
  (∀ a b : Byte, decodeTriple 0xA0 a b = .add a b) ∧
  (∀ (s : State) (r q : RegIdx), ∃ t, exec (.add (regByte r) (regByte q)) s = .next t ∧
    (t.reg r).toNat = ((s.reg r).toNat + (s.reg q).toNat) % 256 ∧ (∀ p, p ≠ r → t.reg p = s.reg p) ∧
    t = { s with regs := t.regs, pc := s.pc + 3 }) ∧
  (∀ (s : State) (a b : Byte), 7 < a.toNat →
    exec (.add a b) s = .next { s with fault := some ⟨.registerIndexOutOfRange, s.pc, a.toNat⟩ }) ∧
  (∀ (s : State) (r : RegIdx) (b : Byte), 7 < b.toNat →
    exec (.add (regByte r) b) s = .next { s with fault := some ⟨.registerIndexOutOfRange, s.pc, b.toNat⟩ }) ∧
  TopOfMemoryFaults 0xA0

/-- 43_alu.md R148. Completes for every two registers, equal ones and R7 included, in every state. -/
def Obligations.MultiplyWritesTheProductModulo256 : Prop :=
  (∀ a b : Byte, decodeTriple 0xA2 a b = .multiply a b) ∧
  (∀ (s : State) (r q : RegIdx), ∃ t, exec (.multiply (regByte r) (regByte q)) s = .next t ∧
    (t.reg r).toNat = ((s.reg r).toNat * (s.reg q).toNat) % 256 ∧ (∀ p, p ≠ r → t.reg p = s.reg p) ∧
    t = { s with regs := t.regs, pc := s.pc + 3 }) ∧
  (∀ (s : State) (a b : Byte), 7 < a.toNat →
    exec (.multiply a b) s = .next { s with fault := some ⟨.registerIndexOutOfRange, s.pc, a.toNat⟩ }) ∧
  (∀ (s : State) (r : RegIdx) (b : Byte), 7 < b.toNat →
    exec (.multiply (regByte r) b) s = .next { s with fault := some ⟨.registerIndexOutOfRange, s.pc, b.toNat⟩ }) ∧
  TopOfMemoryFaults 0xA2

/-- 44_stack.md R161. Completes for every register where x[7] is not 0; PUSH R7 stores the decremented stack pointer. -/
def Obligations.PushStoresBelowTheStackPointer : Prop :=
  (∀ a b : Byte, decodeTriple 0x45 a b = .push a) ∧
  (∀ (s : State) (r : RegIdx), s.reg 7 ≠ 0 → ∃ t, exec (.push (regByte r)) s = .next t ∧
    (t.reg 7).toNat = (s.reg 7).toNat - 1 ∧ (∀ p, p ≠ 7 → t.reg p = s.reg p) ∧
    t.memRead (s.reg 7 - 1) = (if r = 7 then s.reg 7 - 1 else s.reg r) ∧
    (∀ x, x ≠ s.reg 7 - 1 → t.memRead x = s.memRead x) ∧
    t = { s with regs := t.regs, mem := t.mem, pc := s.pc + 2 }) ∧
  (∀ (s : State) (r : RegIdx), s.reg 7 = 0 →
    exec (.push (regByte r)) s = .next { s with fault := some ⟨.stackOutOfRange, s.pc, 0⟩ }) ∧
  (∀ (s : State) (a : Byte), 7 < a.toNat →
    exec (.push a) s = .next { s with fault := some ⟨.registerIndexOutOfRange, s.pc, a.toNat⟩ }) ∧
  TopOfMemoryFaults 0x45

/-- 44_stack.md R162. Completes for every register other than R7 where x[7] is not 255, and for R7 where the cell at x[7] is not
255; memory is not changed. -/
def Obligations.PopLoadsFromTheStackPointer : Prop :=
  (∀ a b : Byte, decodeTriple 0x46 a b = .pop a) ∧
  (∀ (s : State) (r : RegIdx), r ≠ 7 → s.reg 7 ≠ 255 → ∃ t, exec (.pop (regByte r)) s = .next t ∧
    t.reg r = s.memRead (s.reg 7) ∧ (t.reg 7).toNat = (s.reg 7).toNat + 1 ∧
    (∀ p, p ≠ r → p ≠ 7 → t.reg p = s.reg p) ∧ t = { s with regs := t.regs, pc := s.pc + 2 }) ∧
  (∀ s : State, s.memRead (s.reg 7) ≠ 255 → ∃ t, exec (.pop (regByte 7)) s = .next t ∧
    (t.reg 7).toNat = (s.memRead (s.reg 7)).toNat + 1 ∧ (∀ p, p ≠ 7 → t.reg p = s.reg p) ∧
    t = { s with regs := t.regs, pc := s.pc + 2 }) ∧
  (∀ (s : State) (r : RegIdx), (r ≠ 7 ∧ s.reg 7 = 255) ∨ (r = 7 ∧ s.memRead (s.reg 7) = 255) →
    exec (.pop (regByte r)) s = .next { s with fault := some ⟨.stackOutOfRange, s.pc, 255⟩ }) ∧
  (∀ (s : State) (a : Byte), 7 < a.toNat →
    exec (.pop a) s = .next { s with fault := some ⟨.registerIndexOutOfRange, s.pc, a.toNat⟩ }) ∧
  TopOfMemoryFaults 0x46

/-- 45_unrecognized.md R175, 30_encoding.md R88: each of the other 249 opcode bytes (the ranges R88 lists), and no recognised one, reports the pc and
is skipped. Completes in every state. -/
def Obligations.UnrecognizedReportsThePc : Prop :=
  (∀ op a b : Byte, decodeTriple op a b = .unrecognized op ↔
    op ∉ ([0x01, 0x45, 0x46, 0x47, 0x82, 0xA0, 0xA2] : List Byte)) ∧
  (∀ op : Byte, op ∉ ([0x01, 0x45, 0x46, 0x47, 0x82, 0xA0, 0xA2] : List Byte) ↔
    op.toNat = 0x00 ∨ (0x02 ≤ op.toNat ∧ op.toNat ≤ 0x44) ∨ (0x48 ≤ op.toNat ∧ op.toNat ≤ 0x81) ∨
      (0x83 ≤ op.toNat ∧ op.toNat ≤ 0x9F) ∨ op.toNat = 0xA1 ∨ 0xA3 ≤ op.toNat) ∧
  (∀ (s : State) (op : Byte), exec (.unrecognized op) s = .next { s with diag := s.diag ++ [s.pc], pc := s.pc + 1 }) ∧
  ∀ op : Byte, op ∉ ([0x01, 0x45, 0x46, 0x47, 0x82, 0xA0, 0xA2] : List Byte) → TopOfMemoryFaults op

/-! ### Frames -/

/-- 10_state.md R21: an instruction that answers a next state leaves every register as it was except the ones R21 says it
writes: its destination a, and x[7] for PUSH and POP. -/
def Obligations.OtherRegistersAreUnchanged : Prop :=
  ∀ (i : Instr) (s t : State), exec i s = .next t → ∀ r : RegIdx, ¬ i.writes r → t.reg r = s.reg r

/-- 20_memory.md R55: every instruction leaves every byte of memory as it was, except PUSH the one at the address it stores to,
the decremented stack pointer. -/
def Obligations.OtherMemoryIsUnchanged : Prop :=
  ∀ (i : Instr) (s t : State), exec i s = .next t → ∀ x : Byte,
    (∀ a, i = .push a → x ≠ pushAddress s) → t.memRead x = s.memRead x

/-- 10_state.md R25, 00_scope.md R16, 40_execution_cycle.md R121: only HALT writes the running flag, only PRINT-REGISTER the out
history, only UNRECOGNIZED the diag history; the latch changes only by a raise, which changes nothing else; none touches the
record loaded, which is the model's choice (log 7). -/
def Obligations.OtherControlStateIsUnchanged : Prop :=
  ∀ (i : Instr) (s t : State), exec i s = .next t →
    (i ≠ .halt → t.running = s.running) ∧ ((∀ a, i ≠ .printRegister a) → t.out = s.out) ∧
    ((∀ op, i ≠ .unrecognized op) → t.diag = s.diag) ∧ (t.fault ≠ s.fault → t = { s with fault := t.fault }) ∧
    t.loaded = s.loaded

/-! ### Faults -/

/-- 30_encoding.md R90: the register index check of every form, operand A before operand B, with no other effect; LOAD-IMMEDIATE's
literal, HALT and UNRECOGNIZED never raise it. -/
def Obligations.RegisterIndexIsChecked : Prop :=
  (∀ (s : State) (a b : Byte), 7 < a.toNat →
    exec (.loadImmediate a b) s = .next { s with fault := some ⟨.registerIndexOutOfRange, s.pc, a.toNat⟩ } ∧
    exec (.printRegister a) s = .next { s with fault := some ⟨.registerIndexOutOfRange, s.pc, a.toNat⟩ } ∧
    exec (.push a) s = .next { s with fault := some ⟨.registerIndexOutOfRange, s.pc, a.toNat⟩ } ∧
    exec (.pop a) s = .next { s with fault := some ⟨.registerIndexOutOfRange, s.pc, a.toNat⟩ } ∧
    exec (.add a b) s = .next { s with fault := some ⟨.registerIndexOutOfRange, s.pc, a.toNat⟩ } ∧
    exec (.multiply a b) s = .next { s with fault := some ⟨.registerIndexOutOfRange, s.pc, a.toNat⟩ }) ∧
  (∀ (s : State) (a b : Byte), a.toNat ≤ 7 → 7 < b.toNat →
    exec (.add a b) s = .next { s with fault := some ⟨.registerIndexOutOfRange, s.pc, b.toNat⟩ } ∧
    exec (.multiply a b) s = .next { s with fault := some ⟨.registerIndexOutOfRange, s.pc, b.toNat⟩ }) ∧
  ∀ (s : State) (a b op : Byte), a.toNat ≤ 7 →
    (∃ t, exec (.loadImmediate a b) s = .next t ∧ t.fault = s.fault) ∧
    (∃ t, exec .halt s = .next t ∧ t.fault = s.fault) ∧ ∃ t, exec (.unrecognized op) s = .next t ∧ t.fault = s.fault

/-- 44_stack.md R163: PUSH at 0 and POP whose increment would be 256 latch StackOutOfRange and have no effect; in every other case
the stack pointer steps by one without wrapping. -/
def Obligations.StackBoundsAreChecked : Prop :=
  (∀ (s : State) (r : RegIdx), exec (.push (regByte r)) s =
      .next { s with fault := some ⟨.stackOutOfRange, s.pc, 0⟩ } ∧ s.reg 7 = 0 ∨
    s.reg 7 ≠ 0 ∧ ∃ t, exec (.push (regByte r)) s = .next t ∧ (t.reg 7).toNat + 1 = (s.reg 7).toNat ∧ t.fault = s.fault) ∧
  ∀ (s : State) (r : RegIdx),
    (exec (.pop (regByte r)) s = .next { s with fault := some ⟨.stackOutOfRange, s.pc, 255⟩ } ∧
      (if r = 7 then s.memRead (s.reg 7) else s.reg 7) = 255) ∨
    ((if r = 7 then s.memRead (s.reg 7) else s.reg 7) ≠ 255 ∧ ∃ t, exec (.pop (regByte r)) s = .next t ∧
      (t.reg 7).toNat = (if r = 7 then s.memRead (s.reg 7) else s.reg 7).toNat + 1 ∧ t.fault = s.fault)

/-- 60_exceptions.md R189: a step that raises sets the latch to a cause, the current pc and that cause's info, changes nothing
else, and no step follows it. -/
def Obligations.FaultsArePrecise : Prop :=
  ∀ s t : State, step s = .next t → t.fault ≠ none →
    (∃ r : FaultRecord, t = { s with fault := some r } ∧ r.pc = s.pc ∧
      ((r.cause = .fetchOutOfRange ∧ 253 < s.pc ∧ r.info = s.pc) ∨
       (r.cause = .registerIndexOutOfRange ∧ 8 ≤ r.info ∧ r.info ≤ 255 ∧
        (r.info = (s.fetchByte 1).toNat ∨ r.info = (s.fetchByte 2).toNat)) ∨
       (r.cause = .stackOutOfRange ∧ s.fetchByte 0 = 0x45 ∧ r.info = 0) ∨
       (r.cause = .stackOutOfRange ∧ s.fetchByte 0 = 0x46 ∧ r.info = 255))) ∧
    ∀ u, step t ≠ .next u

/-- 60_exceptions.md R188: at most one condition is reported per step, the first that applies in the rule's order (the
priority chain is Machine.reportedCondition), and it is reported as its row of R182 says. -/
def Obligations.FirstConditionIsReported : Prop :=
  ∀ s : State, s.running = true → s.fault = none → ∃ t, step s = .next t ∧
    match reportedCondition s with
    | none => t.fault = none ∧ t.diag = s.diag
    | some (.unrecognizedOpcode, p) => t.fault = none ∧ t.diag = s.diag ++ [p]
    | some (c, info) => ∃ cause : FaultCause, cause.condition = c ∧ t = { s with fault := some ⟨cause, s.pc, info⟩ }

/-- 60_exceptions.md R190: no return from a fault, no second fault, and only reset clears the latch. -/
def Obligations.FaultLatchHoldsUntilReset : Prop :=
  ∀ (s : State) (r : FaultRecord), s.fault = some r →
    (∀ t, step s ≠ .next t) ∧ (∀ k, run k s = .next s) ∧ (resetInput s).fault = none

/-! ### Invariants and whole-machine rules -/

/-- Every step keeps the invariant: memory canonical, the pc in 0..256, the latch consistent, the diag history increasing and
below the pc, the events counted by the pc (10_state.md R23, 60_exceptions.md R182, 40_execution_cycle.md R121). -/
def Obligations.StepKeepsTheInvariant : Prop := ∀ s t : State, s.Inv → step s = .next t → t.Inv

/-- The invariant holds at reset. -/
def Obligations.ResetMeetsTheInvariant : Prop := State.reset.Inv

/-- The invariant holds in every state a run can begin in, whatever the image (20_memory.md R64). -/
def Obligations.LaunchMeetsTheInvariant : Prop := ∀ (image : List Byte) (t : State), launch image = .next t → t.Inv

/-- 40_execution_cycle.md R120: from every state, 255 attempts end the run and more lose nothing; a run that ends with the
running flag still true ends faulted; and step number k + 1 of a run completes only if the first pc plus k is at most 253, so
from pc = 0 at most 254 steps complete. -/
def Obligations.EveryRunEnds : Prop :=
  ∀ s : State, (∃ t, run 255 s = .next t ∧ (t.isFinal = true ∨ t.isFaulted = true)) ∧
    (∀ k, 255 ≤ k → run k s = run 255 s) ∧
    (∀ t, run 255 s = .next t → t.running = true → t.fault ≠ none) ∧
    ∀ (k : Nat) (t u : State), run k s = .next t → step t = .next u → u.fault = none → s.pc + k ≤ 253

/-- 10_state.md R25: HALT alone clears the running flag, and nothing sets it: of the two states of a step, the first is running,
and the second is not exactly when a HALT opcode was fetched in range. -/
def Obligations.OnlyHaltClearsTheRunningFlag : Prop :=
  ∀ s t : State, step s = .next t →
    s.running = true ∧ (t.running = false ↔ s.pc ≤ 253 ∧ s.memRead (BitVec.ofNat 8 s.pc) = 0x01)

/-- 10_state.md R27, 20_memory.md R55: the only instruction that writes memory is PUSH, and it writes the one cell below the
stack pointer. -/
def Obligations.OnlyPushWritesMemory : Prop :=
  ∀ (s t : State) (x : Byte), step s = .next t → t.memRead x ≠ s.memRead x →
    s.memRead (BitVec.ofNat 8 s.pc) = 0x45 ∧ s.reg 7 ≠ 0 ∧ x = s.reg 7 - 1

/-- 44_stack.md R164: the round trip restores every register, R7 included, and leaves the pushed byte in the cell below; PUSH Ra
then POP Rb copies; items come back in reverse order. -/
def Obligations.PushThenPopIsARoundTrip : Prop :=
  (∀ (s : State) (r : RegIdx), s.reg 7 ≠ 0 → ∃ t u,
    exec (.push (regByte r)) s = .next t ∧ exec (.pop (regByte r)) t = .next u ∧ (∀ p, u.reg p = s.reg p) ∧
    u.memRead (s.reg 7 - 1) = (if r = 7 then s.reg 7 - 1 else s.reg r) ∧
    ∀ x, x ≠ s.reg 7 - 1 → u.memRead x = s.memRead x) ∧
  (∀ (s : State) (r q : RegIdx), s.reg 7 ≠ 0 → r ≠ q → r ≠ 7 → q ≠ 7 → ∃ t u,
    exec (.push (regByte r)) s = .next t ∧ exec (.pop (regByte q)) t = .next u ∧
    ∀ p, u.reg p = if p = q then s.reg r else s.reg p) ∧
  ∀ (s : State) (r q p n : RegIdx), 2 ≤ (s.reg 7).toNat → r ≠ 7 → q ≠ 7 → p ≠ 7 → n ≠ 7 → p ≠ n → ∃ t u v w,
    exec (.push (regByte r)) s = .next t ∧ exec (.push (regByte q)) t = .next u ∧
    exec (.pop (regByte p)) u = .next v ∧ exec (.pop (regByte n)) v = .next w ∧
    w.reg p = s.reg q ∧ w.reg n = s.reg r ∧ w.reg 7 = s.reg 7

/-- 42_data_movement.md R135, 95_test_vectors.md E1: LOAD-IMMEDIATE then PRINT-REGISTER of the same register prints the
literal. -/
def Obligations.LoadThenPrintEmitsTheLiteral : Prop :=
  ∀ (s : State) (r : RegIdx) (imm : Byte), ∃ t u, exec (.loadImmediate (regByte r) imm) s = .next t ∧
    exec (.printRegister (regByte r)) t = .next u ∧ u.out = s.out ++ [imm] ∧ u.pc = s.pc + 5

/-- 43_alu.md R150: ADD and MULTIPLY are commutative in value, and MULTIPLY by 255 then ADD subtracts. -/
def Obligations.AluValuesAreModulo256 : Prop :=
  (∀ (s : State) (r q : RegIdx), ∃ t u, exec (.add (regByte r) (regByte q)) s = .next t ∧
    exec (.add (regByte q) (regByte r)) s = .next u ∧ t.reg r = u.reg q) ∧
  (∀ (s : State) (r q : RegIdx), ∃ t u, exec (.multiply (regByte r) (regByte q)) s = .next t ∧
    exec (.multiply (regByte q) (regByte r)) s = .next u ∧ t.reg r = u.reg q) ∧
  ∀ (s : State) (r q p : RegIdx), r ≠ q → q ≠ p → s.reg p = 255 → ∃ t u,
    exec (.multiply (regByte q) (regByte p)) s = .next t ∧ exec (.add (regByte r) (regByte q)) t = .next u ∧
    (u.reg r).toNat = ((s.reg r).toNat + (256 - (s.reg q).toNat)) % 256

/-- 20_memory.md R62: a store is seen by the very next fetch, and the PUSH that makes it executes as fetched: the next step runs
the instruction read with the pushed byte in its cell and every other cell as it was. -/
def Obligations.StoreIsSeenByTheNextFetch : Prop :=
  ∀ (s : State) (r : RegIdx), s.running = true → s.fault = none → s.pc ≤ 251 → s.reg 7 ≠ 0 →
    s.memRead (BitVec.ofNat 8 s.pc) = 0x45 → s.memRead (BitVec.ofNat 8 (s.pc + 1)) = regByte r →
    ∃ t, step s = .next t ∧ t.pc = s.pc + 2 ∧
      step t = exec (decodeTriple
        (if BitVec.ofNat 8 (s.pc + 2) = s.reg 7 - 1 then (if r = 7 then s.reg 7 - 1 else s.reg r)
          else s.memRead (BitVec.ofNat 8 (s.pc + 2)))
        (if BitVec.ofNat 8 (s.pc + 3) = s.reg 7 - 1 then (if r = 7 then s.reg 7 - 1 else s.reg r)
          else s.memRead (BitVec.ofNat 8 (s.pc + 3)))
        (if BitVec.ofNat 8 (s.pc + 4) = s.reg 7 - 1 then (if r = 7 then s.reg 7 - 1 else s.reg r)
          else s.memRead (BitVec.ofNat 8 (s.pc + 4)))) t
end

