-- ==== Sys2Proof/Laws/Decode.lean ====
section
/-! SUPPORT. The decoder case by case, and the small facts of lengths and encodings. -/

namespace Sys2Proof

@[simp] theorem decodeTriple_halt (a b : Byte) : decodeTriple 0x01#8 a b = .halt := rfl
@[simp] theorem decodeTriple_loadImmediate (a b : Byte) : decodeTriple 0x82#8 a b = .loadImmediate a b := rfl
@[simp] theorem decodeTriple_printRegister (a b : Byte) : decodeTriple 0x47#8 a b = .printRegister a := rfl
@[simp] theorem decodeTriple_add (a b : Byte) : decodeTriple 0xA0#8 a b = .add a b := rfl
@[simp] theorem decodeTriple_multiply (a b : Byte) : decodeTriple 0xA2#8 a b = .multiply a b := rfl
@[simp] theorem decodeTriple_push (a b : Byte) : decodeTriple 0x45#8 a b = .push a := rfl
@[simp] theorem decodeTriple_pop (a b : Byte) : decodeTriple 0x46#8 a b = .pop a := rfl

/-- Membership in the list of recognised opcodes, spelled out. -/
theorem mem_recognizedOpcodes (op : Byte) :
    op ∈ recognizedOpcodes ↔
      op = 0x01 ∨ op = 0x45 ∨ op = 0x46 ∨ op = 0x47 ∨ op = 0x82 ∨ op = 0xA0 ∨ op = 0xA2 := by
  simp only [recognizedOpcodes, List.mem_cons, List.not_mem_nil, or_false]

/-- Everything the dispatch can answer: one row each, and the catch-all exactly where no other row matches. -/
theorem decodeTriple_cases (op a b : Byte) :
    (op = 0x01 ∧ decodeTriple op a b = .halt) ∨
    (op = 0x82 ∧ decodeTriple op a b = .loadImmediate a b) ∨
    (op = 0x47 ∧ decodeTriple op a b = .printRegister a) ∨
    (op = 0xA0 ∧ decodeTriple op a b = .add a b) ∨
    (op = 0xA2 ∧ decodeTriple op a b = .multiply a b) ∨
    (op = 0x45 ∧ decodeTriple op a b = .push a) ∨
    (op = 0x46 ∧ decodeTriple op a b = .pop a) ∨
    (op ∉ recognizedOpcodes ∧ decodeTriple op a b = .unrecognized op) := by
  rw [mem_recognizedOpcodes]
  unfold decodeTriple
  split_ifs <;> simp_all

/-- An opcode no row names is UNRECOGNIZED. -/
theorem decodeTriple_unrecognized (op a b : Byte) (h : op ∉ recognizedOpcodes) :
    decodeTriple op a b = .unrecognized op := by
  rw [mem_recognizedOpcodes] at h
  push Not at h
  obtain ⟨h1, h2, h3, h4, h5, h6, h7⟩ := h
  simp only [decodeTriple, h1, h2, h3, h4, h5, h6, h7, if_false]

/-- The dispatch gives instructions of the machine only. -/
theorem decodeTriple_wf (op a b : Byte) : (decodeTriple op a b).wf = true := by
  rcases decodeTriple_cases op a b with ⟨_, h⟩ | ⟨_, h⟩ | ⟨_, h⟩ | ⟨_, h⟩ | ⟨_, h⟩ | ⟨_, h⟩ | ⟨_, h⟩ | ⟨hn, h⟩ <;>
    rw [h] <;> simp_all [Instr.wf]

/-- An instruction is one to three bytes long (30_encoding.md R80). -/
theorem length_bounds (i : Instr) : 1 ≤ i.length ∧ i.length ≤ 3 := by
  cases i <;> simp [Instr.length]

end Sys2Proof
end

