-- ==== Sys2Proof/Laws/State.lean ====
section
/-! SUPPORT. One lemma per field per update of the state, so that no proof unfolds a record update. -/

namespace Sys2Proof.Machine

open Sys2Proof

@[simp] theorem setReg_regs (s : State) (r : RegIdx) (v : Byte) : (s.setReg r v).regs = s.regs.set r v := rfl
@[simp] theorem setReg_pc (s : State) (r : RegIdx) (v : Byte) : (s.setReg r v).pc = s.pc := rfl
@[simp] theorem setReg_running (s : State) (r : RegIdx) (v : Byte) : (s.setReg r v).running = s.running := rfl
@[simp] theorem setReg_fault (s : State) (r : RegIdx) (v : Byte) : (s.setReg r v).fault = s.fault := rfl
@[simp] theorem setReg_mem (s : State) (r : RegIdx) (v : Byte) : (s.setReg r v).mem = s.mem := rfl
@[simp] theorem setReg_out (s : State) (r : RegIdx) (v : Byte) : (s.setReg r v).out = s.out := rfl
@[simp] theorem setReg_diag (s : State) (r : RegIdx) (v : Byte) : (s.setReg r v).diag = s.diag := rfl
@[simp] theorem setReg_loaded (s : State) (r : RegIdx) (v : Byte) : (s.setReg r v).loaded = s.loaded := rfl
@[simp] theorem setReg_memRead (s : State) (r : RegIdx) (v : Byte) (x : Byte) : (s.setReg r v).memRead x = s.memRead x := rfl

@[simp] theorem memWrite_regs (s : State) (a v : Byte) : (s.memWrite a v).regs = s.regs := rfl
@[simp] theorem memWrite_pc (s : State) (a v : Byte) : (s.memWrite a v).pc = s.pc := rfl
@[simp] theorem memWrite_running (s : State) (a v : Byte) : (s.memWrite a v).running = s.running := rfl
@[simp] theorem memWrite_fault (s : State) (a v : Byte) : (s.memWrite a v).fault = s.fault := rfl
@[simp] theorem memWrite_mem (s : State) (a v : Byte) : (s.memWrite a v).mem = s.mem.write a v := rfl
@[simp] theorem memWrite_out (s : State) (a v : Byte) : (s.memWrite a v).out = s.out := rfl
@[simp] theorem memWrite_diag (s : State) (a v : Byte) : (s.memWrite a v).diag = s.diag := rfl
@[simp] theorem memWrite_loaded (s : State) (a v : Byte) : (s.memWrite a v).loaded = s.loaded := rfl
@[simp] theorem memWrite_reg (s : State) (a v : Byte) (q : RegIdx) : (s.memWrite a v).reg q = s.reg q := rfl

@[simp] theorem emitOut_regs (s : State) (v : Byte) : (s.emitOut v).regs = s.regs := rfl
@[simp] theorem emitOut_pc (s : State) (v : Byte) : (s.emitOut v).pc = s.pc := rfl
@[simp] theorem emitOut_running (s : State) (v : Byte) : (s.emitOut v).running = s.running := rfl
@[simp] theorem emitOut_fault (s : State) (v : Byte) : (s.emitOut v).fault = s.fault := rfl
@[simp] theorem emitOut_mem (s : State) (v : Byte) : (s.emitOut v).mem = s.mem := rfl
@[simp] theorem emitOut_out (s : State) (v : Byte) : (s.emitOut v).out = s.out ++ [v] := rfl
@[simp] theorem emitOut_diag (s : State) (v : Byte) : (s.emitOut v).diag = s.diag := rfl
@[simp] theorem emitOut_loaded (s : State) (v : Byte) : (s.emitOut v).loaded = s.loaded := rfl
@[simp] theorem emitOut_reg (s : State) (v : Byte) (q : RegIdx) : (s.emitOut v).reg q = s.reg q := rfl
@[simp] theorem emitOut_memRead (s : State) (v : Byte) (x : Byte) : (s.emitOut v).memRead x = s.memRead x := rfl

@[simp] theorem emitDiag_regs (s : State) (p : Nat) : (s.emitDiag p).regs = s.regs := rfl
@[simp] theorem emitDiag_pc (s : State) (p : Nat) : (s.emitDiag p).pc = s.pc := rfl
@[simp] theorem emitDiag_running (s : State) (p : Nat) : (s.emitDiag p).running = s.running := rfl
@[simp] theorem emitDiag_fault (s : State) (p : Nat) : (s.emitDiag p).fault = s.fault := rfl
@[simp] theorem emitDiag_mem (s : State) (p : Nat) : (s.emitDiag p).mem = s.mem := rfl
@[simp] theorem emitDiag_out (s : State) (p : Nat) : (s.emitDiag p).out = s.out := rfl
@[simp] theorem emitDiag_diag (s : State) (p : Nat) : (s.emitDiag p).diag = s.diag ++ [p] := rfl
@[simp] theorem emitDiag_loaded (s : State) (p : Nat) : (s.emitDiag p).loaded = s.loaded := rfl
@[simp] theorem emitDiag_reg (s : State) (p : Nat) (q : RegIdx) : (s.emitDiag p).reg q = s.reg q := rfl
@[simp] theorem emitDiag_memRead (s : State) (p : Nat) (x : Byte) : (s.emitDiag p).memRead x = s.memRead x := rfl

@[simp] theorem advance_regs (s : State) (n : Nat) : (s.advance n).regs = s.regs := rfl
@[simp] theorem advance_pc (s : State) (n : Nat) : (s.advance n).pc = s.pc + n := rfl
@[simp] theorem advance_running (s : State) (n : Nat) : (s.advance n).running = s.running := rfl
@[simp] theorem advance_fault (s : State) (n : Nat) : (s.advance n).fault = s.fault := rfl
@[simp] theorem advance_mem (s : State) (n : Nat) : (s.advance n).mem = s.mem := rfl
@[simp] theorem advance_out (s : State) (n : Nat) : (s.advance n).out = s.out := rfl
@[simp] theorem advance_diag (s : State) (n : Nat) : (s.advance n).diag = s.diag := rfl
@[simp] theorem advance_loaded (s : State) (n : Nat) : (s.advance n).loaded = s.loaded := rfl
@[simp] theorem advance_reg (s : State) (n : Nat) (q : RegIdx) : (s.advance n).reg q = s.reg q := rfl
@[simp] theorem advance_memRead (s : State) (n : Nat) (x : Byte) : (s.advance n).memRead x = s.memRead x := rfl

@[simp] theorem raise_regs (s : State) (c : FaultCause) (i : Nat) : (s.raise c i).regs = s.regs := rfl
@[simp] theorem raise_pc (s : State) (c : FaultCause) (i : Nat) : (s.raise c i).pc = s.pc := rfl
@[simp] theorem raise_running (s : State) (c : FaultCause) (i : Nat) : (s.raise c i).running = s.running := rfl
@[simp] theorem raise_fault (s : State) (c : FaultCause) (i : Nat) : (s.raise c i).fault = some ⟨c, s.pc, i⟩ := rfl
@[simp] theorem raise_mem (s : State) (c : FaultCause) (i : Nat) : (s.raise c i).mem = s.mem := rfl
@[simp] theorem raise_out (s : State) (c : FaultCause) (i : Nat) : (s.raise c i).out = s.out := rfl
@[simp] theorem raise_diag (s : State) (c : FaultCause) (i : Nat) : (s.raise c i).diag = s.diag := rfl
@[simp] theorem raise_loaded (s : State) (c : FaultCause) (i : Nat) : (s.raise c i).loaded = s.loaded := rfl
@[simp] theorem raise_reg (s : State) (c : FaultCause) (i : Nat) (q : RegIdx) : (s.raise c i).reg q = s.reg q := rfl
@[simp] theorem raise_memRead (s : State) (c : FaultCause) (i : Nat) (x : Byte) : (s.raise c i).memRead x = s.memRead x := rfl

@[simp] theorem clearRunning_regs (s : State) : (s.clearRunning).regs = s.regs := rfl
@[simp] theorem clearRunning_pc (s : State) : (s.clearRunning).pc = s.pc := rfl
@[simp] theorem clearRunning_running (s : State) : (s.clearRunning).running = false := rfl
@[simp] theorem clearRunning_fault (s : State) : (s.clearRunning).fault = s.fault := rfl
@[simp] theorem clearRunning_mem (s : State) : (s.clearRunning).mem = s.mem := rfl
@[simp] theorem clearRunning_out (s : State) : (s.clearRunning).out = s.out := rfl
@[simp] theorem clearRunning_diag (s : State) : (s.clearRunning).diag = s.diag := rfl
@[simp] theorem clearRunning_loaded (s : State) : (s.clearRunning).loaded = s.loaded := rfl
@[simp] theorem clearRunning_reg (s : State) (q : RegIdx) : (s.clearRunning).reg q = s.reg q := rfl
@[simp] theorem clearRunning_memRead (s : State) (x : Byte) : (s.clearRunning).memRead x = s.memRead x := rfl

/-- Reading a register just written gives the value written. -/
@[simp] theorem setReg_reg_same (s : State) (r : RegIdx) (v : Byte) : (s.setReg r v).reg r = v := by
  simp [State.reg, State.setReg]

/-- Writing a register leaves every other register alone. -/
theorem setReg_reg_ne (s : State) (r q : RegIdx) (v : Byte) (h : q ≠ r) : (s.setReg r v).reg q = s.reg q := by
  have h' : r.val ≠ q.val := fun e => h (Fin.ext e.symm)
  simp [State.reg, State.setReg, h']

/-- Both cases at once. -/
theorem setReg_reg (s : State) (r q : RegIdx) (v : Byte) :
    (s.setReg r v).reg q = if q = r then v else s.reg q := by
  split
  · next h => rw [h, setReg_reg_same]
  · next h => exact setReg_reg_ne s r q v h

/-- Two register files that agree on every register are equal. -/
theorem regs_ext {v w : Vector Byte 8} (h : ∀ r : RegIdx, v[r] = w[r]) : v = w := by
  exact Vector.ext fun i hi => h ⟨i, hi⟩

end Sys2Proof.Machine
end

