-- ==== Sys2Proof/Laws/Memory.lean ====
section
/-! SUPPORT. Memory: a read after a write, and the canonical form, which every memory operation keeps. -/

namespace Sys2Proof.Machine

open Sys2Proof

/-- Dropping the cells of an address leaves every other address as it was. -/
theorem cellAt_filter_ne (m : Memory) {x y : Nat} (h : y ≠ x) :
    Memory.cellAt (m.filter fun c => decide (c.1 ≠ x)) y = Memory.cellAt m y := by
  induction m with
  | nil => rfl
  | cons c m ih =>
    obtain ⟨b, w⟩ := c
    by_cases hb : b = x
    · have hy : ¬ y = b := fun e => h (e.trans hb)
      rw [List.filter_cons_of_neg (by simp [hb]), ih]
      simp [Memory.cellAt, hy]
    · rw [List.filter_cons_of_pos (by simp [hb])]
      simp only [Memory.cellAt]
      split
      · rfl
      · exact ih

/-- Dropping the cells of an address leaves the unlisted value there. -/
theorem cellAt_filter_self (m : Memory) (x : Nat) :
    Memory.cellAt (m.filter fun c => decide (c.1 ≠ x)) x = 0 := by
  induction m with
  | nil => rfl
  | cons c m ih =>
    obtain ⟨b, w⟩ := c
    by_cases hb : b = x
    · rw [List.filter_cons_of_neg (by simp [hb]), ih]
    · rw [List.filter_cons_of_pos (by simp [hb])]
      rw [Memory.cellAt, if_neg (Ne.symm hb), ih]

/-- An inserted cell is read back where no other cell has its address. -/
theorem cellAt_insertCell_self (m : Memory) (x : Nat) (v : Byte) (h : ∀ c ∈ m, c.1 ≠ x) :
    Memory.cellAt (Memory.insertCell m x v) x = v := by
  induction m with
  | nil => simp [Memory.insertCell, Memory.cellAt]
  | cons c m ih =>
    obtain ⟨b, w⟩ := c
    have hb : x ≠ b := fun e => h (b, w) (by simp) e.symm
    simp only [Memory.insertCell]
    split
    · simp [Memory.cellAt]
    · simp [Memory.cellAt, hb, ih fun c hc => h c (by simp [hc])]

/-- Inserting a cell leaves every other address as it was. -/
theorem cellAt_insertCell_ne (m : Memory) {x y : Nat} (v : Byte) (h : y ≠ x) :
    Memory.cellAt (Memory.insertCell m x v) y = Memory.cellAt m y := by
  induction m with
  | nil => simp [Memory.insertCell, Memory.cellAt, h]
  | cons c m ih =>
    obtain ⟨b, w⟩ := c
    simp only [Memory.insertCell]
    split
    · simp [Memory.cellAt, h]
    · simp only [Memory.cellAt, ih]

/-- A read after a write to the same address gives the value written (20_memory.md R56). -/
@[simp] theorem read_write_same (m : Memory) (a v : Byte) : (m.write a v).read a = v := by
  simp only [Memory.read, Memory.write]
  split
  · next h => rw [cellAt_filter_self, h]
  · exact cellAt_insertCell_self _ _ _ fun c hc => by simpa using (List.mem_filter.mp hc).2

/-- A write leaves every other address alone (20_memory.md R56). -/
theorem read_write_ne (m : Memory) {a b : Byte} (v : Byte) (h : b ≠ a) : (m.write a v).read b = m.read b := by
  have hn : b.toNat ≠ a.toNat := fun e => h (BitVec.eq_of_toNat_eq e)
  simp only [Memory.read, Memory.write]
  split
  · exact cellAt_filter_ne m hn
  · rw [cellAt_insertCell_ne _ _ hn, cellAt_filter_ne m hn]

/-- Both cases at once. -/
theorem read_write (m : Memory) (a b v : Byte) : (m.write a v).read b = if b = a then v else m.read b := by
  split
  · next h => rw [h, read_write_same]
  · next h => exact read_write_ne m v h

@[simp] theorem memWrite_memRead_same (s : State) (a v : Byte) : (s.memWrite a v).memRead a = v :=
  read_write_same s.mem a v

theorem memWrite_memRead_ne (s : State) {a b : Byte} (v : Byte) (h : b ≠ a) :
    (s.memWrite a v).memRead b = s.memRead b := read_write_ne s.mem v h

theorem memWrite_memRead (s : State) (a b v : Byte) :
    (s.memWrite a v).memRead b = if b = a then v else s.memRead b := read_write s.mem a b v

/-- The cells of an insertion are the old ones and the new one. -/
theorem mem_insertCell (m : Memory) (x : Nat) (v : Byte) (c : Host.Cell) :
    c ∈ Memory.insertCell m x v ↔ c = (x, v) ∨ c ∈ m := by
  induction m with
  | nil => simp [Memory.insertCell]
  | cons d m ih =>
    obtain ⟨b, w⟩ := d
    simp only [Memory.insertCell]
    split
    · simp
    · simp only [List.mem_cons, ih]
      tauto

/-- Inserting a cell of a new address keeps the addresses strictly rising. -/
theorem pairwise_insertCell (m : Memory) (x : Nat) (v : Byte) (h : m.Pairwise fun c d => c.1 < d.1)
    (hx : ∀ c ∈ m, c.1 ≠ x) : (Memory.insertCell m x v).Pairwise fun c d => c.1 < d.1 := by
  induction m with
  | nil => simp [Memory.insertCell]
  | cons d m ih =>
    obtain ⟨b, w⟩ := d
    have hb : b ≠ x := hx (b, w) (by simp)
    obtain ⟨hd, hm⟩ := List.pairwise_cons.mp h
    simp only [Memory.insertCell]
    split
    · next hlt =>
      refine List.pairwise_cons.mpr ⟨fun c hc => ?_, h⟩
      rcases List.mem_cons.mp hc with rfl | hc
      · exact hlt
      · exact Nat.lt_trans hlt (hd c hc)
    · next hge =>
      refine List.pairwise_cons.mpr ⟨fun c hc => ?_, ih hm fun c hc => hx c (by simp [hc])⟩
      rcases (mem_insertCell m x v c).mp hc with rfl | hc
      · show b < x
        omega
      · exact hd c hc

/-- Every write keeps the canonical form. -/
theorem write_wf (m : Memory) (a v : Byte) (h : m.wf) : (m.write a v).wf := by
  have hf : Memory.wf (m.filter fun c => decide (c.1 ≠ a.toNat)) :=
    ⟨h.1.filter _, fun c hc => h.2 c (List.mem_filter.mp hc).1⟩
  simp only [Memory.write]
  split
  · exact hf
  · next hv =>
    refine ⟨pairwise_insertCell _ _ _ hf.1 fun c hc => by simpa using (List.mem_filter.mp hc).2, fun c hc => ?_⟩
    rcases (mem_insertCell _ _ _ c).mp hc with rfl | hc
    · exact ⟨a.isLt, hv⟩
    · exact hf.2 c hc

/-- Loading an image keeps the canonical form. -/
theorem writeFrom_wf (image : List Byte) (m : Memory) (k : Nat) (h : m.wf) : (m.writeFrom k image).wf := by
  induction image generalizing m k with
  | nil => exact h
  | cons v rest ih => exact ih _ _ (write_wf m _ v h)

/-- The memory after reset is in canonical form. -/
theorem reset_mem_wf : State.reset.mem.wf := by decide

/-- Placing an instruction keeps the canonical form. -/
theorem placeAtFetch_wf (s : State) (b0 b1 b2 : Byte) (h : s.mem.wf) : (s.placeAtFetch b0 b1 b2).mem.wf := by
  simp only [State.placeAtFetch]
  split
  · exact write_wf _ _ _ (write_wf _ _ _ (write_wf _ _ _ h))
  · exact h

/-- What a loaded image leaves to read: its own bytes where it reaches, the old bytes elsewhere. -/
theorem read_writeFrom (image : List Byte) (m : Memory) (k : Nat) (a : Byte) (h : k + image.length ≤ 256) :
    (m.writeFrom k image).read a =
      if k ≤ a.toNat ∧ a.toNat < k + image.length then image.getD (a.toNat - k) 0 else m.read a := by
  induction image generalizing m k with
  | nil =>
    have : ¬ (k ≤ a.toNat ∧ a.toNat < k + ([] : List Byte).length) := by simp
    rw [if_neg this]
    rfl
  | cons v rest ih =>
    have hk : k + 1 + rest.length ≤ 256 := by simp only [List.length_cons] at h; omega
    have hlen : (v :: rest).length = rest.length + 1 := rfl
    rw [Memory.writeFrom, ih _ _ hk, read_write, hlen]
    have hkn : (BitVec.ofNat 8 k).toNat = k := by rw [BitVec.toNat_ofNat]; omega
    by_cases he : a = BitVec.ofNat 8 k
    · have hak : a.toNat = k := by rw [he, hkn]
      rw [if_neg (by omega), if_pos he, if_pos (by omega), hak, Nat.sub_self]
      rfl
    · have hne : a.toNat ≠ k := fun e => he (BitVec.eq_of_toNat_eq (e.trans hkn.symm))
      by_cases hin : k + 1 ≤ a.toNat ∧ a.toNat < k + 1 + rest.length
      · have hsub : a.toNat - k = (a.toNat - (k + 1)) + 1 := by omega
        rw [if_pos hin, if_pos (by omega), hsub]
        rfl
      · rw [if_neg hin, if_neg he, if_neg (by omega)]

end Sys2Proof.Machine
end

