-- ==== Sys2Proof/Laws/Ops.lean ====
section
/-! SUPPORT. What each shared operation can do, said once: operand checks, the ALU, the stack, placing an instruction. -/

namespace Sys2Proof.Machine

open Sys2Proof

/-- The byte that names a register names it. -/
@[simp] theorem regIndex_regByte (r : RegIdx) : regIndex? (regByte r) = some r := by
  revert r; decide

/-- A byte above 7 names no register (30_encoding.md R82). -/
theorem regIndex_none (a : Byte) (h : 7 < a.toNat) : regIndex? a = none := by
  rw [regIndex?, dif_neg (by omega)]

/-- A byte that names a register is that register's byte. -/
theorem regIndex_some {a : Byte} {r : RegIdx} (h : regIndex? a = some r) : a = regByte r := by
  unfold regIndex? at h
  split at h
  · obtain rfl := Option.some.inj h
    exact BitVec.eq_of_toNat_eq (by rw [BitVec.toNat_ofNat]; show a.toNat = a.toNat % 2 ^ 8; omega)
  · cases h

/-- Register bytes name registers one to one. -/
theorem regByte_inj {r q : RegIdx} (h : regByte r = regByte q) : r = q := by
  have := regIndex_regByte r
  rw [h, regIndex_regByte] at this
  exact (Option.some.inj this).symm

/-- An operand byte names a register, or it is above 7. -/
theorem regIndex_cases (a : Byte) : (∃ r : RegIdx, a = regByte r) ∨ 7 < a.toNat := by
  cases h : regIndex? a with
  | some r => exact .inl ⟨r, regIndex_some h⟩
  | none =>
    right
    unfold regIndex? at h
    split at h
    · cases h
    · omega

@[simp] theorem withReg_regByte (r : RegIdx) (s : State) (go : RegIdx → Result) : withReg (regByte r) s go = go r := by
  simp only [withReg, regIndex_regByte]

theorem withReg_raises (a : Byte) (s : State) (go : RegIdx → Result) (h : 7 < a.toNat) :
    withReg a s go = .next (s.raise .registerIndexOutOfRange a.toNat) := by
  simp only [withReg, regIndex_none a h]

/-- All a register operand can do: name its register, or raise (30_encoding.md R90). -/
theorem withReg_cases (a : Byte) (s : State) (go : RegIdx → Result) :
    (∃ r : RegIdx, a = regByte r ∧ withReg a s go = go r) ∨
    (7 < a.toNat ∧ withReg a s go = .next (s.raise .registerIndexOutOfRange a.toNat)) := by
  rcases regIndex_cases a with ⟨r, rfl⟩ | h
  · exact .inl ⟨r, rfl, withReg_regByte r s go⟩
  · exact .inr ⟨h, withReg_raises a s go h⟩

@[simp] theorem withRegs_regByte (r q : RegIdx) (s : State) (go : RegIdx → RegIdx → Result) :
    withRegs (regByte r) (regByte q) s go = go r q := by
  simp only [withRegs, withReg_regByte]

/-- All two register operands can do: name both, or raise for the first byte above 7, operand A first (30_encoding.md R90). -/
theorem withRegs_cases (a b : Byte) (s : State) (go : RegIdx → RegIdx → Result) :
    (∃ r q : RegIdx, a = regByte r ∧ b = regByte q ∧ withRegs a b s go = go r q) ∨
    (7 < a.toNat ∧ withRegs a b s go = .next (s.raise .registerIndexOutOfRange a.toNat)) ∨
    (∃ r : RegIdx, a = regByte r ∧ 7 < b.toNat ∧
      withRegs a b s go = .next (s.raise .registerIndexOutOfRange b.toNat)) := by
  rcases withReg_cases a s fun ra => withReg b s fun rb => go ra rb with ⟨r, rfl, ha⟩ | ⟨h, ha⟩
  · rcases withReg_cases b s fun rb => go r rb with ⟨q, rfl, hb⟩ | ⟨h, hb⟩
    · exact .inl ⟨r, q, rfl, rfl, ha.trans hb⟩
    · exact .inr (.inr ⟨r, rfl, h, ha.trans hb⟩)
  · exact .inr (.inl ⟨h, ha⟩)

/-- The ALU writes its first register and nothing else (43_alu.md R145). -/
@[simp] theorem alu_eq (s : State) (op : AluOp) (ra rb : RegIdx) :
    s.alu op ra rb = s.setReg ra (aluResult op (s.reg ra) (s.reg rb)) := rfl

/-- The sum modulo 256 (43_alu.md R146). -/
theorem aluResult_add_toNat (x y : Byte) : (aluResult .add x y).toNat = (x.toNat + y.toNat) % 256 :=
  BitVec.toNat_ofNat ..

/-- The product modulo 256 (43_alu.md R146). -/
theorem aluResult_multiply_toNat (x y : Byte) : (aluResult .multiply x y).toNat = (x.toNat * y.toNat) % 256 :=
  BitVec.toNat_ofNat ..

/-- All PUSH can do once its register is known (44_stack.md R161, R163). -/
theorem pushReg_cases (ra : RegIdx) (s : State) :
    (s.sp = 0 ∧ pushReg ra s = s.raise .stackOutOfRange 0) ∨
    (s.sp ≠ 0 ∧ pushReg ra s =
      ((s.setReg 7 (pushAddress s)).memWrite (pushAddress s) (if ra = 7 then pushAddress s else s.reg ra)).advance 2) := by
  unfold pushReg
  split
  · next h => exact .inl ⟨h, rfl⟩
  · next h =>
    refine .inr ⟨h, ?_⟩
    show ((s.setReg 7 (pushAddress s)).memWrite _ ((s.setReg 7 (pushAddress s)).reg ra)).advance 2 = _
    rw [setReg_reg]

/-- POP's increment overflows exactly when the value it steps is 255 (44_stack.md R162). -/
theorem popIncrement_eq (ra : RegIdx) (s : State) :
    popIncrement ra s = (if ra = 7 then s.memRead s.sp else s.sp).toNat + 1 := rfl

/-- All POP can do once its register is known (44_stack.md R162, R163). -/
theorem popReg_cases (ra : RegIdx) (s : State) :
    (popIncrement ra s = 256 ∧ popReg ra s = s.raise .stackOutOfRange 255) ∨
    (popIncrement ra s ≤ 255 ∧ popReg ra s =
      ((s.setReg ra (s.memRead s.sp)).setReg 7 (BitVec.ofNat 8 (popIncrement ra s))).advance 2) := by
  have hlt := (if ra = 7 then s.memRead s.sp else s.sp).isLt
  have he := popIncrement_eq ra s
  unfold popReg
  split
  · next h => exact .inl ⟨by omega, rfl⟩
  · next h => exact .inr ⟨by omega, rfl⟩

/-- Placing an instruction changes memory alone. -/
theorem placeAtFetch_eq (s : State) (b0 b1 b2 : Byte) :
    s.placeAtFetch b0 b1 b2 = { s with mem := (s.placeAtFetch b0 b1 b2).mem } := by
  unfold State.placeAtFetch
  split <;> rfl

/-- Two fetch addresses are different addresses. -/
theorem fetchAddress_ne (p : Nat) {j k : Nat} (hj : j ≤ 2) (hk : k ≤ 2) (h : j ≠ k) :
    BitVec.ofNat 8 (p + j) ≠ BitVec.ofNat 8 (p + k) := by
  intro e
  have := congrArg BitVec.toNat e
  simp only [BitVec.toNat_ofNat] at this
  omega

/-- What is placed is what the next fetch reads. -/
theorem placeAtFetch_fetchByte (s : State) (b0 b1 b2 : Byte) (h : s.pc ≤ 253) :
    (s.placeAtFetch b0 b1 b2).fetchByte 0 = b0 ∧ (s.placeAtFetch b0 b1 b2).fetchByte 1 = b1 ∧
      (s.placeAtFetch b0 b1 b2).fetchByte 2 = b2 := by
  have h01 : BitVec.ofNat 8 s.pc ≠ BitVec.ofNat 8 (s.pc + 1) :=
    fetchAddress_ne s.pc (j := 0) (k := 1) (by omega) (by omega) (by omega)
  have h02 : BitVec.ofNat 8 s.pc ≠ BitVec.ofNat 8 (s.pc + 2) :=
    fetchAddress_ne s.pc (j := 0) (k := 2) (by omega) (by omega) (by omega)
  have h12 := fetchAddress_ne s.pc (j := 1) (k := 2) (by omega) (by omega) (by omega)
  have hin : s.fetchInRange = true := decide_eq_true h
  simp only [State.placeAtFetch, hin, if_true, State.fetchByte, memWrite_pc, Nat.add_zero]
  refine ⟨?_, ?_, ?_⟩
  · rw [memWrite_memRead_ne _ _ h02, memWrite_memRead_ne _ _ h01, memWrite_memRead_same]
  · rw [memWrite_memRead_ne _ _ h12, memWrite_memRead_same]
  · rw [memWrite_memRead_same]

end Sys2Proof.Machine
end

