-- ==== Sys2Proof/Laws/Step.lean ====
section
/-! SUPPORT. Inversion of exec, of the step and of the run: everything each can answer, said once. -/

namespace Sys2Proof.Machine

open Sys2Proof

/-- Everything an instruction of the machine can do to a state: raise, or one of the eight arms' effects. Each line names
the instruction and the next state. -/
inductive Effect : Instr → State → State → Prop where
  | raised {i s} (c : FaultCause) (n : Nat) (h : (c = .registerIndexOutOfRange ∧ 8 ≤ n ∧ n ≤ 255) ∨
      (c = .stackOutOfRange ∧ (n = 0 ∨ n = 255))) (hi : i ≠ .halt) (hu : ∀ op, i ≠ .unrecognized op) :
      Effect i s (s.raise c n)
  | halt {s} : Effect .halt s (s.clearRunning.advance 1)
  | loadImmediate {s} (r : RegIdx) (imm : Byte) :
      Effect (.loadImmediate (regByte r) imm) s ((s.setReg r imm).advance 3)
  | printRegister {s} (r : RegIdx) : Effect (.printRegister (regByte r)) s ((s.emitOut (s.reg r)).advance 2)
  | add {s} (r q : RegIdx) :
      Effect (.add (regByte r) (regByte q)) s ((s.setReg r (aluResult .add (s.reg r) (s.reg q))).advance 3)
  | multiply {s} (r q : RegIdx) :
      Effect (.multiply (regByte r) (regByte q)) s ((s.setReg r (aluResult .multiply (s.reg r) (s.reg q))).advance 3)
  | push {s} (r : RegIdx) (h : s.sp ≠ 0) :
      Effect (.push (regByte r)) s
        (((s.setReg 7 (pushAddress s)).memWrite (pushAddress s) (if r = 7 then pushAddress s else s.reg r)).advance 2)
  | pop {s} (r : RegIdx) (h : popIncrement r s ≤ 255) :
      Effect (.pop (regByte r)) s
        (((s.setReg r (s.memRead s.sp)).setReg 7 (BitVec.ofNat 8 (popIncrement r s))).advance 2)
  | unrecognized {s} (op : Byte) : Effect (.unrecognized op) s ((s.emitDiag s.pc).advance 1)

/-- Every instruction answers a next state, and it is one of its effects: no meaning stops. -/
theorem exec_effect (i : Instr) (s : State) : ∃ t, exec i s = .next t ∧ Effect i s t := by
  have bad : ∀ {i : Instr} {a : Byte}, 7 < a.toNat → i ≠ .halt → (∀ op, i ≠ .unrecognized op) →
      Effect i s (s.raise .registerIndexOutOfRange a.toNat) := fun {i a} h hi hu =>
    .raised _ _ (.inl ⟨rfl, h, by have := a.isLt; omega⟩) hi hu
  cases i with
  | halt => exact ⟨_, rfl, .halt⟩
  | loadImmediate a imm =>
    rcases withReg_cases a s fun ra => .next ((s.setReg ra (literal imm)).advance 3) with ⟨r, rfl, h⟩ | ⟨ha, h⟩
    · exact ⟨_, h, .loadImmediate r imm⟩
    · exact ⟨_, h, bad ha nofun nofun⟩
  | printRegister a =>
    rcases withReg_cases a s fun ra => .next ((s.emitOut (s.reg ra)).advance 2) with ⟨r, rfl, h⟩ | ⟨ha, h⟩
    · exact ⟨_, h, .printRegister r⟩
    · exact ⟨_, h, bad ha nofun nofun⟩
  | add a b =>
    rcases withRegs_cases a b s fun ra rb => .next ((s.alu .add ra rb).advance 3) with
      ⟨r, q, rfl, rfl, h⟩ | ⟨ha, h⟩ | ⟨_, _, hb, h⟩
    · exact ⟨_, h, .add r q⟩
    · exact ⟨_, h, bad ha nofun nofun⟩
    · exact ⟨_, h, bad hb nofun nofun⟩
  | multiply a b =>
    rcases withRegs_cases a b s fun ra rb => .next ((s.alu .multiply ra rb).advance 3) with
      ⟨r, q, rfl, rfl, h⟩ | ⟨ha, h⟩ | ⟨_, _, hb, h⟩
    · exact ⟨_, h, .multiply r q⟩
    · exact ⟨_, h, bad ha nofun nofun⟩
    · exact ⟨_, h, bad hb nofun nofun⟩
  | push a =>
    rcases withReg_cases a s fun ra => .next (pushReg ra s) with ⟨r, rfl, h⟩ | ⟨ha, h⟩
    · rcases pushReg_cases r s with ⟨_, hp⟩ | ⟨hs, hp⟩ <;> rw [hp] at h
      · exact ⟨_, h, .raised _ _ (.inr ⟨rfl, .inl rfl⟩) nofun nofun⟩
      · exact ⟨_, h, .push r hs⟩
    · exact ⟨_, h, bad ha nofun nofun⟩
  | pop a =>
    rcases withReg_cases a s fun ra => .next (popReg ra s) with ⟨r, rfl, h⟩ | ⟨ha, h⟩
    · rcases popReg_cases r s with ⟨_, hp⟩ | ⟨hs, hp⟩ <;> rw [hp] at h
      · exact ⟨_, h, .raised _ _ (.inr ⟨rfl, .inr rfl⟩) nofun nofun⟩
      · exact ⟨_, h, .pop r hs⟩
    · exact ⟨_, h, bad ha nofun nofun⟩
  | unrecognized op => exact ⟨_, rfl, .unrecognized op⟩

/-- The effect of an instruction, from its next state. -/
theorem effect_of_exec {i : Instr} {s t : State} (h : exec i s = .next t) : Effect i s t := by
  obtain ⟨u, hu, he⟩ := exec_effect i s
  rw [h] at hu
  cases hu
  exact he

/-- The control loop's test, as its two halves (40_execution_cycle.md R110). -/
theorem mayStep_iff (s : State) : s.mayStep = true ↔ s.running = true ∧ s.fault = none := by
  simp [State.mayStep]

/-- A core takes no step for exactly the reason its status shows. -/
theorem stopReason_none_iff (s : State) : s.stopReason = none ↔ s.mayStep = true := by
  unfold State.stopReason State.mayStep
  cases s.fault <;> cases s.running <;> simp

/-- All a step can answer: no step, FetchOutOfRange, or the fetched instruction's arm. -/
theorem step_cases (s : State) :
    (s.mayStep = false ∧ ∃ r, s.stopReason = some r ∧ step s = .fault r) ∨
    (s.mayStep = true ∧ 253 < s.pc ∧ step s = .next (s.raise .fetchOutOfRange s.pc)) ∨
    (s.mayStep = true ∧ s.pc ≤ 253 ∧ step s = exec s.fetched s) := by
  unfold step cycle
  cases hr : s.stopReason with
  | some r =>
    refine .inl ⟨?_, r, rfl, rfl⟩
    by_contra hm
    rw [(stopReason_none_iff s).mpr (by simpa using hm)] at hr
    cases hr
  | none =>
    have hm := (stopReason_none_iff s).mp hr
    by_cases hp : s.pc ≤ 253
    · have hin : s.fetchInRange = true := decide_eq_true hp
      exact .inr (.inr ⟨hm, hp, by simp only [hin, if_true]⟩)
    · have hin : s.fetchInRange = false := decide_eq_false hp
      exact .inr (.inl ⟨hm, by omega, by simp [hin]⟩)

/-- What a completed step attempt did: it raised FetchOutOfRange, or the fetched instruction had its effect. -/
theorem step_next {s t : State} (h : step s = .next t) :
    s.mayStep = true ∧ ((253 < s.pc ∧ t = s.raise .fetchOutOfRange s.pc) ∨
      (s.pc ≤ 253 ∧ Effect s.fetched s t)) := by
  rcases step_cases s with ⟨_, r, _, hs⟩ | ⟨hm, hp, hs⟩ | ⟨hm, hp, hs⟩ <;> rw [hs] at h
  · cases h
  · cases h
    exact ⟨hm, .inl ⟨hp, rfl⟩⟩
  · exact ⟨hm, .inr ⟨hp, effect_of_exec h⟩⟩

/-- An arm that does not raise advances the pc by the instruction's length and leaves the latch (40_execution_cycle.md R115);
one that raises leaves everything but the latch. -/
theorem effect_pc {i : Instr} {s t : State} (h : Effect i s t) :
    (∃ c n, t = s.raise c n) ∨ (t.pc = s.pc + i.length ∧ t.fault = s.fault) := by
  cases h with
  | raised c n => exact .inl ⟨c, n, rfl⟩
  | halt => exact .inr ⟨rfl, rfl⟩
  | loadImmediate => exact .inr ⟨rfl, rfl⟩
  | printRegister => exact .inr ⟨rfl, rfl⟩
  | add => exact .inr ⟨rfl, rfl⟩
  | multiply => exact .inr ⟨rfl, rfl⟩
  | push => exact .inr ⟨rfl, rfl⟩
  | pop => exact .inr ⟨rfl, rfl⟩
  | unrecognized => exact .inr ⟨rfl, rfl⟩

/-- No effect touches the record of the load. -/
theorem effect_loaded {i : Instr} {s t : State} (h : Effect i s t) : t.loaded = s.loaded := by
  cases h <;> rfl

/-- A step keeps the record of the load. -/
theorem step_loaded {s t : State} (h : step s = .next t) : t.loaded = s.loaded := by
  rcases step_next h with ⟨_, ⟨_, rfl⟩ | ⟨_, he⟩⟩
  · rfl
  · exact effect_loaded he

/-- With no step to take, the loop leaves the state as it is (40_execution_cycle.md R110). -/
theorem run_stopped (k : Nat) (s : State) (h : s.mayStep = false) : run k s = .next s := by
  cases k <;> simp [run, h]

/-- One pass of the loop. -/
theorem run_succ {k : Nat} {s t : State} (hm : s.mayStep = true) (h : step s = .next t) : run (k + 1) s = run k t := by
  simp [run, hm, h]

/-- What every step keeps, a run of any number of attempts keeps. -/
theorem run_keeps {P : State → Prop} (hP : ∀ s t, step s = .next t → P s → P t) (k : Nat) {s t : State}
    (h : run k s = .next t) (hs : P s) : P t := by
  induction k generalizing s with
  | zero =>
    cases h
    exact hs
  | succ k ih =>
    cases hm : s.mayStep with
    | false =>
      rw [run_stopped _ _ hm] at h
      cases h
      exact hs
    | true =>
      cases hu : step s with
      | next u => exact ih (run_succ hm hu ▸ h) (hP s u hu hs)
      | fault r => simp [run, hm, hu] at h
      | refused r => simp [run, hm, hu] at h

end Sys2Proof.Machine
end

