-- ==== Sys2Proof/Laws/Interface.lean ====
section
/-! SUPPORT. All load can answer, said once. -/

namespace Sys2Proof.Machine

open Sys2Proof

/-- A machine that has been loaded is not as reset leaves it. -/
theorem ne_reset_of_loaded {s : State} (h : s.loaded = true) : s ≠ State.reset := by
  rintro rfl
  cases h

/-- All load can do: load the reset state, or refuse, because the machine is not as reset leaves it or because the image does
not fit (20_memory.md R64, R66). -/
theorem load_cases (image : List Byte) (s : State) :
    (s = State.reset ∧ image.length ≤ 256 ∧
      load image s = .next { s with mem := s.mem.writeFrom 0 image, loaded := true }) ∨
    (s = State.reset ∧ 256 < image.length ∧ load image s = .refused (.imageTooLong image.length)) ∨
    (s ≠ State.reset ∧ load image s = .refused .loadNotAfterReset) := by
  unfold load
  by_cases hs : s = State.reset
  · by_cases hl : 256 < image.length
    · exact .inr (.inl ⟨hs, hl, by rw [if_neg (not_not_intro hs), if_pos hl]⟩)
    · exact .inl ⟨hs, by omega, by rw [if_neg (not_not_intro hs), if_neg hl]⟩
  · exact .inr (.inr ⟨hs, by rw [if_pos hs]⟩)

end Sys2Proof.Machine
end

