-- ==== Sys2Proof/Laws/PerInstr.lean ====
section
/-! SUPPORT. Statements made of every instruction as syntax, one lemma per constructor. -/

namespace Sys2Proof.Laws.EncodingLength

open Sys2Proof

/-- The encoder writes exactly the instruction's length in bytes (30_encoding.md R81, R87). -/
def Statement (i : Instr) : Prop := (encode i).length = i.length

theorem halt : Statement .halt := rfl
theorem loadImmediate (a imm : Byte) : Statement (.loadImmediate a imm) := rfl
theorem printRegister (a : Byte) : Statement (.printRegister a) := rfl
theorem add (a b : Byte) : Statement (.add a b) := rfl
theorem multiply (a b : Byte) : Statement (.multiply a b) := rfl
theorem push (a : Byte) : Statement (.push a) := rfl
theorem pop (a : Byte) : Statement (.pop a) := rfl
theorem unrecognized (op : Byte) : Statement (.unrecognized op) := rfl

end Sys2Proof.Laws.EncodingLength
end

