-- ==== Sys2Proof/Tests/Slice0.lean ====
section
/-! SUPPORT. The model's own tests: well-formedness, decoding, one-step vectors of 95_test_vectors.md, and a witness for the
hypotheses of every obligation that has some. Expected results come from the spec's tables, not from the model. -/

namespace Sys2Proof.Tests

open Sys2Proof Sys2Proof.Machine

/-- The next state an answer holds, if it is one. -/
def nextOf : Result → Option State
  | .next t => some t
  | _ => none

/-- The state of 95_test_vectors.md section 2: reset, with some registers, a pc and some cells set. -/
def st (pc : Nat) (regs : List (RegIdx × Byte)) (cells : List (Byte × Byte)) : State :=
  let s := { State.reset with pc := pc }
  let s := regs.foldl (fun s c => s.setReg c.1 c.2) s
  cells.foldl (fun s c => s.memWrite c.1 c.2) s

/-- A field of the state after one step. -/
def after {α : Type} (f : State → α) (s : State) : Option α := (nextOf (step s)).map f

/-! ### Well-formedness: the check and a term it refuses -/

theorem test_wf_accepts : (Instr.unrecognized 0x83).wf = true ∧ (Instr.add 9 1).wf = true := by decide
theorem test_wf_refuses_recognized_opcode :
    (recognizedOpcodes.all fun op => !(Instr.unrecognized op).wf) = true := by decide
theorem test_registersExist_refuses_operand_a : (Instr.push 8).registersExist = false := by decide
theorem test_registersExist_refuses_operand_b : (Instr.add 7 8).registersExist = false := by decide
theorem test_registersExist_literal_unchecked : (Instr.loadImmediate 7 255).registersExist = true := by decide

/-! ### Decoding: words written out from 30_encoding.md R86's binary column, and rejections by name -/

theorem test_decode_halt : decode [0b00000001] = .ok (.halt, []) := rfl
theorem test_decode_loadImmediate : decode [0b10000010, 0b00000010, 0b10000001, 0xAA] =
    .ok (.loadImmediate 2 129, [0xAA]) := rfl
theorem test_decode_printRegister : decode [0b01000111, 0b00000101] = .ok (.printRegister 5, []) := rfl
theorem test_decode_add : decode [0b10100000, 0b00000001, 0b00000110] = .ok (.add 1 6, []) := rfl
theorem test_decode_multiply : decode [0b10100010, 0b00000001, 0b00000110] = .ok (.multiply 1 6, []) := rfl
theorem test_decode_push : decode [0b01000101, 0b00000011] = .ok (.push 3, []) := rfl
theorem test_decode_pop : decode [0b01000110, 0b00000100] = .ok (.pop 4, []) := rfl
theorem test_decode_unrecognized : decode [0b10000011, 0, 1] = .ok (.unrecognized 0x83, [0, 1]) := rfl
theorem test_decode_rejects_nothing : decode [] = .error .noOpcode := rfl
theorem test_decode_rejects_missing_operand : decode [0xA0, 1] = .error (.operandMissing 0xA0) := rfl
/-- opcode_table.json's numbering: bit 0 of the first byte is bit 0, operand bits above nbits are 0. -/
theorem test_decodeTableWord : decodeTableWord 24 0x0503A0 = some (.add 3 5) ∧ decodeTableWord 8 0x0503A0 = some (.add 0 0) := by
  decide

/-! ### One step (95_test_vectors.md section 2; numbers there are hexadecimal) -/

/-- H3: HALT at FD. -/
theorem test_halt_at_the_last_address : after (fun t => (t.running, t.pc)) (st 0xFD [] [(0xFD, 0x01)]) = some (false, 0xFE) := by
  decide
/-- H4: HALT at FE. -/
theorem test_halt_at_254_faults : after (fun t => (t.running, t.pc, t.fault)) (st 0xFE [] [(0xFE, 0x01)]) =
    some (true, 0xFE, some ⟨.fetchOutOfRange, 0xFE, 0xFE⟩) := by decide
/-- L2. -/
theorem test_loadImmediate : after (fun t => (t.reg 3, t.pc)) (st 0x20 [(3, 0x11)] [(0x20, 0x82), (0x21, 3), (0x22, 0xFF)]) =
    some (0xFF, 0x23) := by decide
/-- L7. -/
theorem test_loadImmediate_bad_register : after id (st 0x20 [] [(0x20, 0x82), (0x21, 8), (0x22, 5)]) =
    some { st 0x20 [] [(0x20, 0x82), (0x21, 8), (0x22, 5)] with fault := some ⟨.registerIndexOutOfRange, 0x20, 8⟩ } := by decide
/-- P-4. -/
theorem test_printRegister : after (fun t => (t.out, t.pc)) (st 0x20 [] [(0x20, 0x47), (0x21, 7)]) = some ([244], 0x22) := by
  decide
/-- P-5. -/
theorem test_printRegister_bad_register : after (fun t => (t.out, t.fault)) (st 0x20 [] [(0x20, 0x47), (0x21, 8)]) =
    some ([], some ⟨.registerIndexOutOfRange, 0x20, 8⟩) := by decide
/-- A5. -/
theorem test_add_wraps : after (fun t => (t.reg 0, t.reg 1, t.pc)) (st 0x20 [(0, 200), (1, 100)] [(0x20, 0xA0), (0x22, 1)]) =
    some (44, 100, 0x23) := by decide
/-- A12. -/
theorem test_add_checks_a_first : after (fun t => t.fault) (st 0x20 [] [(0x20, 0xA0), (0x21, 8), (0x22, 9)]) =
    some (some ⟨.registerIndexOutOfRange, 0x20, 8⟩) := by decide
/-- M5. -/
theorem test_multiply_wraps : after (fun t => (t.reg 0, t.reg 1, t.pc)) (st 0x20 [(0, 255), (1, 255)] [(0x20, 0xA2), (0x22, 1)]) =
    some (1, 255, 0x23) := by decide
/-- M8. -/
theorem test_multiply_same_register : after (fun t => t.reg 0) (st 0x20 [(0, 13)] [(0x20, 0xA2)]) = some 169 := by decide
/-- S2. -/
theorem test_push_r7 : after (fun t => (t.reg 7, t.memRead 0xF3, t.pc)) (st 0x20 [] [(0x20, 0x45), (0x21, 7)]) =
    some (0xF3, 0xF3, 0x22) := by decide
/-- S4. -/
theorem test_push_at_zero_faults : after id (st 0x20 [(1, 0xAB), (7, 0)] [(0x20, 0x45), (0x21, 1)]) =
    some { st 0x20 [(1, 0xAB), (7, 0)] [(0x20, 0x45), (0x21, 1)] with fault := some ⟨.stackOutOfRange, 0x20, 0⟩ } := by decide
/-- S9. -/
theorem test_pop_r7 : after (fun t => (t.reg 7, t.pc)) (st 0x20 [] [(0x20, 0x46), (0x21, 7), (0xF4, 0x20)]) =
    some (0x21, 0x22) := by decide
/-- S8. -/
theorem test_pop_at_255_faults : after id (st 0x20 [(7, 0xFF)] [(0x20, 0x46), (0xFF, 0x12)]) =
    some { st 0x20 [(7, 0xFF)] [(0x20, 0x46), (0xFF, 0x12)] with fault := some ⟨.stackOutOfRange, 0x20, 255⟩ } := by decide
/-- U2, first step: the advance is 1 whatever the byte's bits say. -/
theorem test_unrecognized : after (fun t => (t.diag, t.pc, t.running)) (st 0x20 [] [(0x20, 0x83), (0x22, 1)]) =
    some ([0x20], 0x21, true) := by decide
/-- U6. -/
theorem test_unrecognized_at_254_faults : after (fun t => (t.diag, t.fault)) (st 0xFE [] []) =
    some ([], some ⟨.fetchOutOfRange, 0xFE, 0xFE⟩) := by decide

/-! ### The rest of the machine -/

/-- 60_exceptions.md R182: the code and kind columns. -/
theorem test_condition_codes : [Condition.unrecognizedOpcode, .fetchOutOfRange, .registerIndexOutOfRange, .stackOutOfRange,
    .unsupportedAluOperation].map (fun c => (c.code, c.isFatal)) = [(0, false), (1, true), (2, true), (3, true), (4, true)] := by
  decide
/-- A placed word is the first instruction after reset. -/
theorem test_withFetchWord : after (fun t => (t.reg 3, t.pc)) (State.reset.withFetchWord 24 0x2A0382) = some (0x2A, 3) := by decide
/-- 20_memory.md R64, R65: a load of the empty image is a load, and load is performed once. -/
theorem test_second_load_is_refused : (match load [] State.reset with
    | .next t => decide (t.loaded = true ∧ t.mem = []) && (match load [0x01] t with
      | .refused r => decide (r = .loadNotAfterReset)
      | _ => false)
    | _ => false) = true := by decide
/-- A step that takes no step says why (log 2), and a final state is not a faulted one (00_scope.md R17). -/
theorem test_halted_core_answers : step { State.reset with running := false } = .fault .halted := rfl
theorem test_final_and_faulted : ({ State.reset with running := false } : State).isFinal = true ∧
    ({ State.reset with fault := some ⟨.stackOutOfRange, 5, 0⟩ } : State).isFinal = false ∧
    ({ State.reset with fault := some ⟨.stackOutOfRange, 5, 0⟩ } : State).isFaulted = true := by decide
/-- 00_scope.md R12: status shows the flag and the latch. -/
theorem test_status : State.reset.status = ⟨true, none⟩ := by decide

/-! ### Witnesses: concrete states and operands that meet the hypotheses of the obligations, clause by clause -/

theorem wit_LoadPlacesTheImage : (List.replicate 256 (1 : Byte)).length ≤ 256 ∧ ([] : List Byte).length ≤ 256 :=
  ⟨Nat.le_of_eq List.length_replicate, Nat.zero_le _⟩
theorem wit_LongImageIsRefused : 256 < (List.replicate 257 (0 : Byte)).length := by
  rw [List.length_replicate]; decide
theorem wit_LoadIsOverOnceTheCoreHasStepped : ∃ t, step State.reset = .next t := ⟨_, rfl⟩
theorem wit_LoadIsPerformedOnce : ∃ t u, load [] State.reset = .next t ∧ run 1 t = .next u := ⟨_, _, rfl, rfl⟩
theorem wit_LoadIsPerformedOnce_after_reset : (List.replicate 256 (0 : Byte)).length ≤ 256 :=
  Nat.le_of_eq List.length_replicate
theorem wit_DecodeOfEncodeIsTheInstruction : (Instr.unrecognized 0x02).wf = true ∧ (Instr.pop 255).wf = true := by decide
theorem wit_EncodeOfDecodeIsTheBytes : decode [0x46, 0xFF, 0x01] = .ok (.pop 0xFF, [0x01]) := rfl
theorem wit_LengthIsByTheOpcodeByte : ∃ t, State.reset.fault = none ∧
    exec (decodeTriple 0xA2 7 7) State.reset = .next t ∧ t.fault = none := ⟨_, rfl, rfl, rfl⟩
theorem wit_BytesBeyondTheLength_ignored : (st 253 [] [(253, 0x45)]).pc ≤ 253 ∧ (st 253 [] [(253, 0x45)]).fetched.length ≤ 2 ∧
    (st 253 [] []).fetched.length ≤ 1 := by decide
theorem wit_BytesBeyondTheLength_fault : (st 254 [] []).running = true ∧ (st 254 [] []).fault = none ∧ 253 < (st 254 [] []).pc := by
  decide
theorem wit_StepRunsTheDecodedInstruction : ∃ i rest, (st 253 [] [(253, 0x01)]).running = true ∧
    (st 253 [] [(253, 0x01)]).fault = none ∧ (st 253 [] [(253, 0x01)]).pc ≤ 253 ∧
    decode [(st 253 [] [(253, 0x01)]).memRead 253, (st 253 [] [(253, 0x01)]).memRead 254,
      (st 253 [] [(253, 0x01)]).memRead 255] = .ok (i, rest) ∧ i.wf = true :=
  ⟨.halt, [0, 0], by decide, by decide, by decide, rfl, rfl⟩
theorem wit_StepIsTheExpandedPseudocode : State.reset.running = true ∧ State.reset.fault = none := by decide
theorem wit_LoopSteps_steps : ∃ t, step (st 256 [] []) = .next t := ⟨_, rfl⟩
theorem wit_LoopSteps_stops : ¬ (({ State.reset with running := false } : State).running = true ∧
    ({ State.reset with running := false } : State).fault = none) := by decide
theorem wit_FetchRangeIsChecked : (st 256 [] []).running = true ∧ (st 256 [] []).fault = none ∧ 253 < (st 256 [] []).pc ∧
    253 < (st 254 [] []).pc := by decide
theorem wit_PcAdvances_completes : ∃ t, step (st 253 [] [(253, 0x82), (255, 9)]) = .next t ∧ t.fault = none := ⟨_, rfl, by decide⟩
theorem wit_PcAdvances_raises : ∃ t, step (st 253 [] [(253, 0x82), (254, 9)]) = .next t ∧ t.fault ≠ none := ⟨_, rfl, by decide⟩
theorem wit_AtMostOneEvent_faults : ∃ t, step (st 253 [] [(253, 0x47), (254, 8)]) = .next t ∧ t.fault ≠ none := ⟨_, rfl, by decide⟩
theorem wit_AtMostOneEvent_prints : ∃ t, step (st 253 [] [(253, 0x47), (254, 7)]) = .next t ∧ t.fault = none ∧
    (st 253 [] [(253, 0x47), (254, 7)]).fetchByte 0 = 0x47 := ⟨_, rfl, by decide, by decide⟩
theorem wit_AtMostOneEvent_reports : ∃ t, step (st 253 [] [(253, 0x48)]) = .next t ∧ t.fault = none ∧
    (st 253 [] [(253, 0x48)]).fetchByte 0 ∉ recognizedOpcodes := ⟨_, rfl, by decide, by decide⟩
theorem wit_AtMostOneEvent_silent : ∃ t, step (st 253 [] [(253, 0x46)]) = .next t ∧ t.fault = none ∧
    (st 253 [] [(253, 0x46)]).fetchByte 0 ∈ recognizedOpcodes ∧ (st 253 [] [(253, 0x46)]).fetchByte 0 ≠ 0x47 :=
  ⟨_, rfl, by decide, by decide, by decide⟩
theorem wit_HistoriesDoNotInfluence : ∃ t, step (st 0 [] [(0, 0x47)]) = .next t := ⟨_, rfl⟩
theorem wit_EndedCore_faulted : ({ State.reset with fault := some ⟨.stackOutOfRange, 0, 0⟩ } : State).fault =
    some ⟨.stackOutOfRange, 0, 0⟩ := by decide
theorem wit_EndedCore_halted : ({ State.reset with running := false } : State).isFinal = true := by decide
theorem wit_HaltStops : State.reset.fault = none ∧ ∃ t, exec .halt State.reset = .next t := ⟨rfl, _, rfl⟩
/-- Every opcode byte can stand at 254 and at 255 of a running core. -/
theorem wit_TopOfMemory (op : Byte) :
    (((st 254 [] []).memWrite 254 op).running = true ∧ ((st 254 [] []).memWrite 254 op).fault = none ∧
      ((st 254 [] []).memWrite 254 op).pc = 254 ∧ ((st 254 [] []).memWrite 254 op).memRead 254 = op) ∧
    ((st 255 [] []).memWrite 255 op).running = true ∧ ((st 255 [] []).memWrite 255 op).fault = none ∧
      ((st 255 [] []).memWrite 255 op).pc = 255 ∧ ((st 255 [] []).memWrite 255 op).memRead 255 = op :=
  ⟨⟨rfl, rfl, rfl, memWrite_memRead_same ..⟩, rfl, rfl, rfl, memWrite_memRead_same ..⟩
/-- Operand bytes above 7 (every clause about RegisterIndexOutOfRange), at both ends of the range, and 7 below it. -/
theorem wit_OperandAboveSeven : 7 < (8 : Byte).toNat ∧ 7 < (255 : Byte).toNat ∧ (7 : Byte).toNat ≤ 7 := by decide
theorem wit_Push_completes : (st 0 [(7, 1)] []).reg 7 ≠ 0 ∧ (st 0 [(7, 255)] []).reg 7 ≠ 0 := by decide
theorem wit_Push_bound : (st 0 [(7, 0)] []).reg 7 = 0 := by decide
theorem wit_Pop_completes : (6 : RegIdx) ≠ 7 ∧ (st 0 [(7, 254)] []).reg 7 ≠ 255 := by decide
theorem wit_Pop_r7_completes : (st 0 [(7, 255)] [(255, 254)]).memRead ((st 0 [(7, 255)] [(255, 254)]).reg 7) ≠ 255 := by decide
theorem wit_Pop_bound : ((0 : RegIdx) ≠ 7 ∧ (st 0 [(7, 255)] []).reg 7 = 255) ∧
    ((7 : RegIdx) = 7 ∧ (st 0 [] [(0xF4, 255)]).memRead ((st 0 [] [(0xF4, 255)]).reg 7) = 255) := by decide
theorem wit_UnrecognizedReports : (0x00 : Byte) ∉ ([0x01, 0x45, 0x46, 0x47, 0x82, 0xA0, 0xA2] : List Byte) ∧
    (0xFF : Byte) ∉ ([0x01, 0x45, 0x46, 0x47, 0x82, 0xA0, 0xA2] : List Byte) := by decide
theorem wit_OtherRegisters : ∃ t, exec (.pop 0) State.reset = .next t ∧ ¬ (Instr.pop 0).writes 6 :=
  ⟨_, rfl, by simp only [Instr.writes]; decide⟩
theorem wit_OtherMemory : ∃ t, exec (.push 0) State.reset = .next t ∧
    ∀ a, Instr.push 0 = .push a → (0xF4 : Byte) ≠ pushAddress State.reset := ⟨_, rfl, fun _ _ => by decide⟩
theorem wit_OtherControlState : ∃ t, exec (.push 8) State.reset = .next t ∧ (Instr.push 8) ≠ .halt ∧
    (∀ a, Instr.push 8 ≠ .printRegister a) ∧ (∀ op, Instr.push 8 ≠ .unrecognized op) ∧ t.fault ≠ State.reset.fault :=
  ⟨_, rfl, by decide, nofun, nofun, by decide⟩
theorem wit_FaultsArePrecise : ∃ t, step (st 5 [(7, 0)] [(5, 0x45)]) = .next t ∧ t.fault ≠ none := ⟨_, rfl, by decide⟩
/-- Every outcome of the priority chain of 60_exceptions.md R188, with the rule's own examples. -/
theorem wit_FirstCondition : reportedCondition (st 254 [] []) = some (.fetchOutOfRange, 254) ∧
    reportedCondition (st 253 [] []) = some (.unrecognizedOpcode, 253) ∧
    reportedCondition (st 0 [(7, 0)] [(0, 0x45), (1, 9)]) = some (.registerIndexOutOfRange, 9) ∧
    reportedCondition (st 0 [] [(0, 0xA0), (1, 8), (2, 9)]) = some (.registerIndexOutOfRange, 8) ∧
    reportedCondition (st 0 [] [(0, 0xA2), (1, 7), (2, 8)]) = some (.registerIndexOutOfRange, 8) ∧
    reportedCondition (st 0 [(7, 0)] [(0, 0x45), (1, 7)]) = some (.stackOutOfRange, 0) ∧
    reportedCondition (st 0 [(7, 255)] [(0, 0x46)]) = some (.stackOutOfRange, 255) ∧
    reportedCondition (st 0 [(7, 255)] [(0, 0x46), (1, 7)]) = none := by decide
theorem wit_StepKeepsTheInvariant : State.reset.Inv ∧ ∃ t, step State.reset = .next t :=
  ⟨⟨by decide, by decide, nofun, by decide, nofun, by decide⟩, _, rfl⟩
theorem wit_LaunchMeetsTheInvariant : ∃ t, launch [0x82, 0, 8, 0x01] = .next t := ⟨_, rfl⟩
theorem wit_EveryRunEnds_attempts : 255 ≤ 255 ∧ ∃ t, run 255 (st 254 [] []) = .next t ∧ t.running = true := by
  exact ⟨Nat.le_refl _, _, rfl, rfl⟩
theorem wit_EveryRunEnds_completed : ∃ t u, run 0 (st 253 [] [(253, 0x01)]) = .next t ∧ step t = .next u ∧ u.fault = none :=
  ⟨_, _, rfl, rfl, by decide⟩
theorem wit_OnlyHaltClears : ∃ t, step (st 253 [] [(253, 0x01)]) = .next t ∧ t.running = false := ⟨_, rfl, by decide⟩
theorem wit_OnlyPushWrites : ∃ t, step (st 0 [(0, 5), (7, 1)] [(0, 0x45)]) = .next t ∧
    t.memRead 0 ≠ (st 0 [(0, 5), (7, 1)] [(0, 0x45)]).memRead 0 := ⟨_, rfl, by decide⟩
theorem wit_PushThenPop : (st 0 [(7, 1)] []).reg 7 ≠ 0 ∧ (0 : RegIdx) ≠ 1 ∧ (0 : RegIdx) ≠ 7 ∧ (1 : RegIdx) ≠ 7 ∧
    2 ≤ ((st 0 [(7, 2)] []).reg 7).toNat := by decide
theorem wit_AluValues : (0 : RegIdx) ≠ 1 ∧ (1 : RegIdx) ≠ 2 ∧ (st 0 [(2, 255)] []).reg 2 = 255 := by decide
theorem wit_FaultLatch : ({ State.reset with fault := some ⟨.fetchOutOfRange, 254, 254⟩ } : State).fault =
    some ⟨.fetchOutOfRange, 254, 254⟩ := by decide
/-- S14 of 95_test_vectors.md: the push lands on the next opcode. -/
theorem wit_StoreIsSeen : (st 0x20 [(0, 1), (7, 0x23)] [(0x20, 0x45)]).running = true ∧
    (st 0x20 [(0, 1), (7, 0x23)] [(0x20, 0x45)]).fault = none ∧ (st 0x20 [(0, 1), (7, 0x23)] [(0x20, 0x45)]).pc ≤ 251 ∧
    (st 0x20 [(0, 1), (7, 0x23)] [(0x20, 0x45)]).reg 7 ≠ 0 ∧
    (st 0x20 [(0, 1), (7, 0x23)] [(0x20, 0x45)]).memRead 0x20 = 0x45 ∧
    (st 0x20 [(0, 1), (7, 0x23)] [(0x20, 0x45)]).memRead 0x21 = regByte 0 ∧
    (st 0x20 [(0, 1), (7, 0x23)] [(0x20, 0x45)]).reg 7 - 1 = 0x22 := by decide
/-- The last pc from which a two-byte instruction is followed by a fetch, pushing R7 onto the byte at 254. -/
theorem wit_StoreIsSeen_at_the_bound : (st 251 [(7, 255)] [(251, 0x45), (252, 7)]).running = true ∧
    (st 251 [(7, 255)] [(251, 0x45), (252, 7)]).fault = none ∧ (st 251 [(7, 255)] [(251, 0x45), (252, 7)]).pc ≤ 251 ∧
    (st 251 [(7, 255)] [(251, 0x45), (252, 7)]).reg 7 ≠ 0 ∧
    (st 251 [(7, 255)] [(251, 0x45), (252, 7)]).memRead 251 = 0x45 ∧
    (st 251 [(7, 255)] [(251, 0x45), (252, 7)]).memRead 252 = regByte 7 ∧
    (st 251 [(7, 255)] [(251, 0x45), (252, 7)]).reg 7 - 1 = 254 := by decide

end Sys2Proof.Tests
end

/-! ### Proofs about the state (10_state.md): the invariant, the histories, the frames, who writes the flag and memory -/

namespace Sys2Proof.Machine

open Sys2Proof

/-! #### The opcode byte of a decoded instruction, and the step of a running core -/

/-- The first byte of the encoding of what the dispatch answers is the opcode byte it was given (30_encoding.md R86, R88). -/
theorem head?_encode_decodeTriple (op a b : Byte) : (encode (decodeTriple op a b)).head? = some op := by
  rcases decodeTriple_cases op a b with
    ⟨rfl, h⟩ | ⟨rfl, h⟩ | ⟨rfl, h⟩ | ⟨rfl, h⟩ | ⟨rfl, h⟩ | ⟨rfl, h⟩ | ⟨rfl, h⟩ | ⟨_, h⟩ <;> rw [h] <;> rfl

/-- The byte at the pc is the first byte of the fetched instruction's encoding. -/
theorem head?_encode_fetched (s : State) : (encode s.fetched).head? = some (s.memRead (BitVec.ofNat 8 s.pc)) :=
  head?_encode_decodeTriple ..

/-- HALT is fetched exactly where its opcode stands at the pc. -/
theorem fetched_eq_halt_iff (s : State) : s.fetched = .halt ↔ s.memRead (BitVec.ofNat 8 s.pc) = 0x01 := by
  constructor
  · intro h
    have hb := head?_encode_fetched s
    rw [h] at hb
    exact (Option.some.inj hb).symm
  · intro h
    show decodeTriple (s.memRead (BitVec.ofNat 8 s.pc)) _ _ = .halt
    rw [h]
    rfl

/-- Where PUSH is fetched, its opcode stands at the pc. -/
theorem opcode_of_fetched_push {s : State} {a : Byte} (h : s.fetched = .push a) :
    s.memRead (BitVec.ofNat 8 s.pc) = 0x45 := by
  have hb := head?_encode_fetched s
  rw [h] at hb
  exact (Option.some.inj hb).symm

/-- With the fetch in range, the step of a running core is the fetched instruction's arm (40_execution_cycle.md R111). -/
theorem step_of_fetchInRange {s : State} (hm : s.mayStep = true) (hp : s.pc ≤ 253) : step s = exec s.fetched s := by
  rcases step_cases s with ⟨hn, _⟩ | ⟨_, hgt, _⟩ | ⟨_, _, h⟩
  · rw [hm] at hn
    cases hn
  · omega
  · exact h

/-- With the fetch out of range, the step of a running core raises (40_execution_cycle.md R113). -/
theorem step_of_fetchOutOfRange {s : State} (hm : s.mayStep = true) (hp : 253 < s.pc) :
    step s = .next (s.raise .fetchOutOfRange s.pc) := by
  rcases step_cases s with ⟨hn, _⟩ | ⟨_, _, h⟩ | ⟨_, hle, _⟩
  · rw [hm] at hn
    cases hn
  · exact h
  · omega

/-! #### The invariant, operation by operation -/

section Invariant

variable {s : State} (hs : s.Inv)
include hs

/-- The invariant does not speak of the registers. -/
theorem setReg_inv (r : RegIdx) (v : Byte) : (s.setReg r v).Inv :=
  ⟨hs.mem_wf, hs.pc_le, hs.fault_ok, hs.diag_sorted, hs.diag_lt, hs.events_le⟩

theorem memWrite_inv (a v : Byte) : (s.memWrite a v).Inv :=
  ⟨write_wf _ a v hs.mem_wf, hs.pc_le, hs.fault_ok, hs.diag_sorted, hs.diag_lt, hs.events_le⟩

/-- A raise in a running core keeps the invariant when the record is one R182 describes. -/
theorem raise_inv (hr : s.running = true) {c : FaultCause} {n : Nat} (hc : FaultRecord.consistent ⟨c, s.pc, n⟩) :
    (s.raise c n).Inv :=
  ⟨hs.mem_wf, hs.pc_le, fun _ h => Option.some.inj h ▸ ⟨rfl, hr, hc⟩, hs.diag_sorted, hs.diag_lt, hs.events_le⟩

/-- The running flag matters to the invariant only while a fault is latched. -/
theorem clearRunning_inv (hf : s.fault = none) : s.clearRunning.Inv :=
  ⟨hs.mem_wf, hs.pc_le, by simp [hf], hs.diag_sorted, hs.diag_lt, hs.events_le⟩

/-- Passing an instruction that emits nothing. -/
theorem advance_inv (hf : s.fault = none) {n : Nat} (hn : s.pc + n ≤ 256) : (s.advance n).Inv where
  mem_wf := hs.mem_wf
  pc_le := hn
  fault_ok := by simp [hf]
  diag_sorted := hs.diag_sorted
  diag_lt p hp := by
    obtain ⟨hlt, hle⟩ := hs.diag_lt p hp
    exact ⟨Nat.lt_add_right n hlt, hle⟩
  events_le := Nat.le_add_right_of_le hs.events_le

/-- A printed value is paid for by its two-byte instruction. -/
theorem emitOut_advance_inv (hf : s.fault = none) (hp : s.pc ≤ 253) (v : Byte) : ((s.emitOut v).advance 2).Inv where
  __ := advance_inv hs hf (n := 2) (by omega)
  events_le := by
    have := hs.events_le
    show 2 * (s.out ++ [v]).length + s.diag.length ≤ s.pc + 2
    rw [List.length_append, List.length_singleton]
    omega

/-- A report is of the pc that is passed: above every earlier report, below the new pc. -/
theorem emitDiag_advance_inv (hf : s.fault = none) (hp : s.pc ≤ 253) : ((s.emitDiag s.pc).advance 1).Inv where
  mem_wf := hs.mem_wf
  pc_le := by show s.pc + 1 ≤ 256; omega
  fault_ok := by simp [hf]
  diag_sorted := List.pairwise_append.mpr
    ⟨hs.diag_sorted, List.pairwise_singleton .., fun p hp q hq => List.mem_singleton.mp hq ▸ (hs.diag_lt p hp).1⟩
  diag_lt p hmem := by
    rcases List.mem_append.mp hmem with hold | hnew
    · obtain ⟨hlt, hle⟩ := hs.diag_lt p hold
      exact ⟨Nat.lt_succ_of_lt hlt, hle⟩
    · rw [List.mem_singleton.mp hnew]
      exact ⟨Nat.lt_succ_self _, hp⟩
  events_le := by
    have := hs.events_le
    show 2 * s.out.length + (s.diag ++ [s.pc]).length ≤ s.pc + 1
    rw [List.length_append, List.length_singleton]
    omega

/-- Every arm of a running core whose fetch is in range keeps the invariant. -/
theorem effect_inv {i : Instr} {t : State} (hr : s.running = true) (hf : s.fault = none) (hp : s.pc ≤ 253)
    (h : Effect i s t) : t.Inv := by
  have hmax {n : Nat} (hn : n ≤ 3) : s.pc + n ≤ 256 := by omega
  cases h with
  | raised c n hc =>
    refine raise_inv hs hr ?_
    rcases hc with ⟨rfl, hlo, hhi⟩ | ⟨rfl, hn⟩
    · exact ⟨hlo, hhi, hp⟩
    · exact ⟨hn, hp⟩
  | halt => exact advance_inv (clearRunning_inv hs hf) hf (hmax (n := 1) (by decide))
  | loadImmediate r imm => exact advance_inv (setReg_inv hs r imm) hf (hmax (n := 3) (by decide))
  | printRegister r => exact emitOut_advance_inv hs hf hp (s.reg r)
  | add r q => exact advance_inv (setReg_inv hs r _) hf (hmax (n := 3) (by decide))
  | multiply r q => exact advance_inv (setReg_inv hs r _) hf (hmax (n := 3) (by decide))
  | push r => exact advance_inv (memWrite_inv (setReg_inv hs 7 _) _ _) hf (hmax (n := 2) (by decide))
  | pop r => exact advance_inv (setReg_inv (setReg_inv hs r _) 7 _) hf (hmax (n := 2) (by decide))
  | unrecognized op => exact emitDiag_advance_inv hs hf hp

end Invariant

/-- Settles O34: a step raises FetchOutOfRange at its pc, or is an arm, and each operation of an arm keeps the invariant. -/
theorem stepKeepsTheInvariant : Obligations.StepKeepsTheInvariant := by
  intro s t hs h
  obtain ⟨hm, hcase⟩ := step_next h
  obtain ⟨hr, hf⟩ := (mayStep_iff s).mp hm
  rcases hcase with ⟨hp, rfl⟩ | ⟨hp, he⟩
  · exact raise_inv hs hr ⟨rfl, hp, hs.pc_le⟩
  · exact effect_inv hs hr hf hp he

/-- Settles O35: the histories, the memory and the latch of the reset state are empty. -/
theorem resetMeetsTheInvariant : Obligations.ResetMeetsTheInvariant where
  mem_wf := reset_mem_wf
  pc_le := Nat.zero_le _
  fault_ok := nofun
  diag_sorted := .nil
  diag_lt := nofun
  events_le := Nat.le_refl 0

/-! #### The histories do not influence a step (10_state.md R32) -/

/-- `s` with other event histories. -/
def State.withHistories (s : State) (o : List Byte) (d : List Nat) : State := { s with out := o, diag := d }

/-- A meaning that only appends to the histories, and whose events and other results do not depend on them. -/
def IgnoresHistories (f : State → Result) : Prop :=
  ∀ s t, f s = .next t → ∃ eo ed, t.out = s.out ++ eo ∧ t.diag = s.diag ++ ed ∧
    ∀ o d, f (s.withHistories o d) = .next (t.withHistories (o ++ eo) (d ++ ed))

/-- An update that does the same under any histories and carries them over emits nothing. -/
theorem ignoresHistories_of_silent {f : State → State}
    (hf : ∀ s o d, f (s.withHistories o d) = (f s).withHistories o d) : IgnoresHistories fun s => .next (f s) := by
  intro s t h
  obtain rfl := Host.Outcome.next.inj h
  have hself : f s = (f s).withHistories s.out s.diag := hf s s.out s.diag
  refine ⟨[], [], ?_, ?_, fun o d => ?_⟩
  · rw [hself, List.append_nil]; rfl
  · rw [hself, List.append_nil]; rfl
  · rw [List.append_nil, List.append_nil, ← hf]

theorem raise_ignoresHistories (c : FaultCause) (n : Nat) : IgnoresHistories fun s => .next (s.raise c n) :=
  ignoresHistories_of_silent fun _ _ _ => rfl

/-- The check of a register operand does not look at the histories. -/
theorem withReg_ignoresHistories (a : Byte) {go : RegIdx → State → Result} (hgo : ∀ r, IgnoresHistories (go r)) :
    IgnoresHistories fun s => withReg a s fun r => go r s := by
  rcases regIndex_cases a with ⟨r, rfl⟩ | ha
  · simpa only [withReg_regByte] using hgo r
  · simpa only [withReg_raises _ _ _ ha] using raise_ignoresHistories .registerIndexOutOfRange a.toNat

theorem withRegs_ignoresHistories (a b : Byte) {go : RegIdx → RegIdx → State → Result}
    (hgo : ∀ r q, IgnoresHistories (go r q)) : IgnoresHistories fun s => withRegs a b s fun r q => go r q s :=
  withReg_ignoresHistories a fun r => withReg_ignoresHistories b (hgo r)

theorem pushReg_withHistories (r : RegIdx) (s : State) (o : List Byte) (d : List Nat) :
    pushReg r (s.withHistories o d) = (pushReg r s).withHistories o d := by
  unfold pushReg
  rw [apply_ite (State.withHistories · o d)]
  rfl

theorem popReg_withHistories (r : RegIdx) (s : State) (o : List Byte) (d : List Nat) :
    popReg r (s.withHistories o d) = (popReg r s).withHistories o d := by
  unfold popReg
  rw [apply_ite (State.withHistories · o d)]
  rfl

/-- No instruction reads the histories. -/
theorem exec_ignoresHistories (i : Instr) : IgnoresHistories (exec i) := by
  cases i with
  | halt => exact ignoresHistories_of_silent fun _ _ _ => rfl
  | loadImmediate a imm => exact withReg_ignoresHistories a fun _ => ignoresHistories_of_silent fun _ _ _ => rfl
  | printRegister a =>
    refine withReg_ignoresHistories a fun r s t h => ?_
    obtain rfl := Host.Outcome.next.inj h
    exact ⟨[s.reg r], [], rfl, (List.append_nil _).symm, fun o d => by rw [List.append_nil]; rfl⟩
  | add a b => exact withRegs_ignoresHistories a b fun _ _ => ignoresHistories_of_silent fun _ _ _ => rfl
  | multiply a b => exact withRegs_ignoresHistories a b fun _ _ => ignoresHistories_of_silent fun _ _ _ => rfl
  | push a => exact withReg_ignoresHistories a fun r => ignoresHistories_of_silent (pushReg_withHistories r)
  | pop a => exact withReg_ignoresHistories a fun r => ignoresHistories_of_silent (popReg_withHistories r)
  | unrecognized op =>
    intro s t h
    obtain rfl := Host.Outcome.next.inj h
    exact ⟨[], [s.pc], (List.append_nil _).symm, rfl, fun o d => by rw [List.append_nil]; rfl⟩

/-- The loop's test, the fetch range and the fetched instruction do not depend on the histories, so neither does the step. -/
theorem step_ignoresHistories : IgnoresHistories step := by
  intro s t h
  obtain ⟨hm, ⟨hp, -⟩ | ⟨hp, -⟩⟩ := step_next h
  · rw [step_of_fetchOutOfRange hm hp] at h
    obtain ⟨eo, ed, hout, hdiag, hother⟩ := raise_ignoresHistories .fetchOutOfRange s.pc s t h
    exact ⟨eo, ed, hout, hdiag, fun o d => (step_of_fetchOutOfRange (s := s.withHistories o d) hm hp).trans (hother o d)⟩
  · rw [step_of_fetchInRange hm hp] at h
    obtain ⟨eo, ed, hout, hdiag, hother⟩ := exec_ignoresHistories s.fetched s t h
    exact ⟨eo, ed, hout, hdiag, fun o d => (step_of_fetchInRange (s := s.withHistories o d) hm hp).trans (hother o d)⟩

/-- Settles O16, arm by arm: each appends events that do not depend on the histories, and so does a step. -/
theorem historiesDoNotInfluenceAStep : Obligations.HistoriesDoNotInfluenceAStep :=
  ⟨step_ignoresHistories, rfl, rfl⟩

/-! #### What an effect leaves unchanged -/

/-- The registers R21 does not name are left alone. -/
theorem effect_reg_of_not_writes {i : Instr} {s t : State} (h : Effect i s t) {r : RegIdx} (hr : ¬ i.writes r) :
    t.reg r = s.reg r := by
  have ne_of_byte {q : RegIdx} (hq : ¬ regByte q = regByte r) : r ≠ q := fun e => hq (congrArg regByte e.symm)
  cases h with
  | raised | halt | printRegister | unrecognized => rfl
  | loadImmediate q imm => exact setReg_reg_ne s q r _ (ne_of_byte hr)
  | add q p => exact setReg_reg_ne s q r _ (ne_of_byte hr)
  | multiply q p => exact setReg_reg_ne s q r _ (ne_of_byte hr)
  | push q => exact setReg_reg_ne s 7 r _ hr
  | pop q =>
    obtain ⟨hq, hsp⟩ := not_or.mp hr
    exact (setReg_reg_ne _ 7 r _ hsp).trans (setReg_reg_ne s q r _ (ne_of_byte hq))

/-- Settles O26, from the effects. -/
theorem otherRegistersAreUnchanged : Obligations.OtherRegistersAreUnchanged :=
  fun _ _ _ h _ hr => effect_reg_of_not_writes (effect_of_exec h) hr

/-- HALT clears the running flag. -/
theorem effect_halt_running {s t : State} (h : Effect .halt s t) : t.running = false := by
  cases h with
  | raised _ _ _ hi => exact absurd rfl hi
  | halt => rfl

theorem effect_running {i : Instr} {s t : State} (h : Effect i s t) (hi : i ≠ .halt) : t.running = s.running := by
  cases h with
  | halt => exact absurd rfl hi
  | _ => rfl

theorem effect_out {i : Instr} {s t : State} (h : Effect i s t) (hi : ∀ a, i ≠ .printRegister a) : t.out = s.out := by
  cases h with
  | printRegister r => exact absurd rfl (hi (regByte r))
  | _ => rfl

theorem effect_diag {i : Instr} {s t : State} (h : Effect i s t) (hi : ∀ op, i ≠ .unrecognized op) : t.diag = s.diag := by
  cases h with
  | unrecognized op => exact absurd rfl (hi op)
  | _ => rfl

/-- Only a raise changes the latch, and it changes nothing else (60_exceptions.md R189). -/
theorem effect_eq_of_fault_ne {i : Instr} {s t : State} (h : Effect i s t) (hf : t.fault ≠ s.fault) :
    t = { s with fault := t.fault } := by
  rcases effect_pc h with ⟨c, n, rfl⟩ | ⟨_, hsame⟩
  · rfl
  · exact absurd hsame hf

/-- Settles O28, from the effects, one lemma per field. -/
theorem otherControlStateIsUnchanged : Obligations.OtherControlStateIsUnchanged := by
  intro i s t h
  have he := effect_of_exec h
  exact ⟨effect_running he, effect_out he, effect_diag he, effect_eq_of_fault_ne he, effect_loaded he⟩

/-- Only PUSH changes what memory reads, at the address it stores to (20_memory.md R55). -/
theorem effect_memRead_ne {i : Instr} {s t : State} (h : Effect i s t) {x : Byte} (hx : t.memRead x ≠ s.memRead x) :
    (∃ a, i = .push a) ∧ s.sp ≠ 0 ∧ x = pushAddress s := by
  cases h with
  | push r hsp => exact ⟨⟨_, rfl⟩, hsp, by_contra fun hne => hx (memWrite_memRead_ne _ _ hne)⟩
  | _ => exact absurd rfl hx

/-- Settles O39: of the effects, PUSH's alone changes memory; FetchOutOfRange changes none. -/
theorem onlyPushWritesMemory : Obligations.OnlyPushWritesMemory := by
  intro s t x h hx
  obtain ⟨-, ⟨-, rfl⟩ | ⟨-, he⟩⟩ := step_next h
  · exact absurd rfl hx
  · obtain ⟨⟨a, hpush⟩, hsp, haddr⟩ := effect_memRead_ne he hx
    exact ⟨opcode_of_fetched_push hpush, hsp, haddr⟩

/-- An effect on a running core stops it exactly when the instruction is HALT. -/
theorem effect_stops_iff {i : Instr} {s t : State} (h : Effect i s t) (hr : s.running = true) :
    t.running = false ↔ i = .halt := by
  constructor
  · intro hstop
    by_contra hi
    rw [effect_running h hi, hr] at hstop
    cases hstop
  · rintro rfl
    exact effect_halt_running h

/-- Settles O38: FetchOutOfRange leaves the flag, and of the effects HALT's alone clears it. -/
theorem onlyHaltClearsTheRunningFlag : Obligations.OnlyHaltClearsTheRunningFlag := by
  intro s t h
  obtain ⟨hm, hcase⟩ := step_next h
  have hr := ((mayStep_iff s).mp hm).1
  refine ⟨hr, ?_⟩
  rcases hcase with ⟨hp, rfl⟩ | ⟨hp, he⟩
  · rw [raise_running, hr]
    exact iff_of_false nofun fun hin => absurd hin.1 (by omega)
  · rw [effect_stops_iff he hr, fetched_eq_halt_iff]
    exact (and_iff_right hp).symm

end Sys2Proof.Machine

/-! ### Proofs about memory (20_memory.md): the load and its window, the frame, a store and the fetch after it -/

namespace Sys2Proof.Machine

open Sys2Proof

/-! #### What load accepts and what it refuses -/

/-- The reset state with an image loaded: the state in which `run` begins. -/
def State.loadedWith (image : List Byte) : State :=
  { State.reset with mem := State.reset.mem.writeFrom 0 image, loaded := true }

/-- Load is accepted in the reset state alone, for an image that fits, and leaves that image loaded (20_memory.md R64, R66). -/
theorem load_eq_next_iff {image : List Byte} {s t : State} :
    load image s = .next t ↔ s = State.reset ∧ image.length ≤ 256 ∧ t = State.loadedWith image := by
  rcases load_cases image s with ⟨rfl, hle, h⟩ | ⟨rfl, hgt, h⟩ | ⟨hne, h⟩ <;> rw [h]
  · exact ⟨fun e => ⟨rfl, hle, (Host.Outcome.next.inj e).symm⟩, fun ⟨_, _, ht⟩ => ht ▸ rfl⟩
  · exact iff_of_false nofun fun ⟨_, hle, _⟩ => absurd hgt (Nat.not_lt.mpr hle)
  · exact iff_of_false nofun fun ⟨hs, _⟩ => hne hs

/-- An image that fits is loaded after reset (20_memory.md R65). -/
theorem launch_of_le {image : List Byte} (h : image.length ≤ 256) : launch image = .next (State.loadedWith image) :=
  load_eq_next_iff.mpr ⟨rfl, h, rfl⟩

/-- Elsewhere than in the reset state every load is refused. -/
theorem load_of_ne_reset {s : State} (h : s ≠ State.reset) (image : List Byte) :
    load image s = .refused .loadNotAfterReset := by
  rcases load_cases image s with ⟨hs, _⟩ | ⟨hs, _⟩ | ⟨_, hr⟩
  · exact absurd hs h
  · exact absurd hs h
  · exact hr

/-- Settles O3: of the answers of load, this is the one for the reset state and an image that does not fit. -/
theorem longImageIsRefused : Obligations.LongImageIsRefused := by
  intro image hgt
  rcases load_cases image State.reset with ⟨_, hle, _⟩ | ⟨_, _, h⟩ | ⟨hne, _⟩
  · exact absurd hgt (Nat.not_lt.mpr hle)
  · exact h
  · exact absurd rfl hne

/-! #### The loaded state -/

/-- The image stands from address 0 upward, and every other cell holds its reset value (20_memory.md R65). -/
theorem loadedWith_memRead {image : List Byte} (h : image.length ≤ 256) (a : Byte) :
    (State.loadedWith image).memRead a = if a.toNat < image.length then image.getD a.toNat 0 else 0 := by
  have hread := read_writeFrom image State.reset.mem 0 a (by omega)
  rw [Nat.zero_add, Nat.sub_zero] at hread
  simp only [Nat.zero_le, true_and] at hread
  exact hread

/-- Load changes memory and its own record alone, and the memory it leaves is canonical. -/
theorem loadedWith_inv (image : List Byte) : (State.loadedWith image).Inv where
  __ := resetMeetsTheInvariant
  mem_wf := writeFrom_wf image _ 0 reset_mem_wf

/-- Settles O2, by the read after writing an image from address 0. -/
theorem loadPlacesTheImage : Obligations.LoadPlacesTheImage :=
  fun image h => ⟨State.loadedWith image, launch_of_le h, loadedWith_memRead h, rfl⟩

/-- Settles O36: what load accepts leaves the image loaded, and that state satisfies the invariant. -/
theorem launchMeetsTheInvariant : Obligations.LaunchMeetsTheInvariant := by
  intro image t h
  obtain ⟨-, -, rfl⟩ := load_eq_next_iff.mp h
  exact loadedWith_inv image

/-! #### The window of load -/

/-- A step never leads back to the reset state: it sets the latch, or it passes an instruction (log 7). -/
theorem ne_reset_of_step {s t : State} (h : step s = .next t) : t ≠ State.reset := by
  rintro rfl
  obtain ⟨-, ⟨-, hraise⟩ | ⟨-, he⟩⟩ := step_next h
  · exact absurd (congrArg State.fault hraise) nofun
  · rcases effect_pc he with ⟨c, n, hraise⟩ | ⟨hpc, -⟩
    · exact absurd (congrArg State.fault hraise) nofun
    · have hlen := (length_bounds s.fetched).1
      have hzero : State.reset.pc = 0 := rfl
      omega

/-- No run clears the record of the load. -/
theorem loaded_of_run {k : Nat} {s t : State} (h : run k s = .next t) (hs : s.loaded = true) : t.loaded = true :=
  run_keeps (P := fun s => s.loaded = true) (fun _ _ hstep hl => (step_loaded hstep).trans hl) k h hs

/-- Settles O4: a step does not lead to the reset state, and load is refused elsewhere. -/
theorem loadIsOverOnceTheCoreHasStepped : Obligations.LoadIsOverOnceTheCoreHasStepped :=
  fun _ _ image h => load_of_ne_reset (ne_reset_of_step h) image

/-- Settles O44: the record set by load outlasts every run, and reset leads back to the state where load is accepted. -/
theorem loadIsPerformedOnce : Obligations.LoadIsPerformedOnce := by
  refine ⟨fun s t image h => ?_, fun _ image hle => ⟨_, launch_of_le hle⟩⟩
  obtain ⟨hs, -, rfl⟩ := load_eq_next_iff.mp h
  exact ⟨hs, fun k u again hrun => load_of_ne_reset (ne_reset_of_loaded (loaded_of_run hrun rfl)) again⟩

/-! #### The frame, and a store seen by the fetch after it -/

/-- Settles O27: an effect that changes a byte is PUSH's, at the address it stores to. -/
theorem otherMemoryIsUnchanged : Obligations.OtherMemoryIsUnchanged := by
  intro i s t h x hx
  by_contra hne
  obtain ⟨⟨a, hpush⟩, -, haddr⟩ := effect_memRead_ne (effect_of_exec h) hne
  exact hx a hpush haddr

/-- The state a completed PUSH of register `r` leaves (44_stack.md R161). -/
def State.pushed (s : State) (r : RegIdx) : State :=
  ((s.setReg 7 (pushAddress s)).memWrite (pushAddress s) (if r = 7 then pushAddress s else s.reg r)).advance 2

/-- PUSH of a register completes where the stack pointer is not 0. -/
theorem exec_push {s : State} (r : RegIdx) (h : s.sp ≠ 0) : exec (.push (regByte r)) s = .next (s.pushed r) := by
  show withReg (regByte r) s (fun ra => .next (pushReg ra s)) = _
  rw [withReg_regByte]
  rcases pushReg_cases r s with ⟨hz, _⟩ | ⟨_, hp⟩
  · exact absurd hz h
  · rw [hp]
    rfl

/-- A read after PUSH: the pushed byte where it was stored, the old byte elsewhere (20_memory.md R56). -/
theorem pushed_memRead (s : State) (r : RegIdx) (x : Byte) :
    (s.pushed r).memRead x = if x = s.reg 7 - 1 then (if r = 7 then s.reg 7 - 1 else s.reg r) else s.memRead x :=
  memWrite_memRead (s.setReg 7 (pushAddress s)) (pushAddress s) x _

/-- Where PUSH's opcode stands at the pc and a register byte behind it, that PUSH is fetched. -/
theorem fetched_eq_push {s : State} {a : Byte} (hop : s.memRead (BitVec.ofNat 8 s.pc) = 0x45)
    (ha : s.memRead (BitVec.ofNat 8 (s.pc + 1)) = a) : s.fetched = .push a := by
  show decodeTriple (s.memRead (BitVec.ofNat 8 s.pc)) (s.memRead (BitVec.ofNat 8 (s.pc + 1))) _ = _
  rw [hop, ha]
  exact decodeTriple_push ..

/-- Settles O43: both steps run what they fetch, and the second fetch reads the memory PUSH left, byte by byte. -/
theorem storeIsSeenByTheNextFetch : Obligations.StoreIsSeenByTheNextFetch := by
  intro s r hrun hfault hpc hsp hop ha
  have hm : s.mayStep = true := (mayStep_iff s).mpr ⟨hrun, hfault⟩
  have hstep : step s = .next (s.pushed r) := by
    rw [step_of_fetchInRange hm (by omega), fetched_eq_push hop ha, exec_push r hsp]
  have hnext : step (s.pushed r) = exec (s.pushed r).fetched (s.pushed r) :=
    step_of_fetchInRange (s := s.pushed r) hm (by show s.pc + 2 ≤ 253; omega)
  refine ⟨s.pushed r, hstep, rfl, hnext.trans ?_⟩
  show exec (decodeTriple ((s.pushed r).memRead (BitVec.ofNat 8 (s.pc + 2)))
    ((s.pushed r).memRead (BitVec.ofNat 8 (s.pc + 3))) ((s.pushed r).memRead (BitVec.ofNat 8 (s.pc + 4)))) _ = _
  simp only [pushed_memRead]

end Sys2Proof.Machine

/-! ### Proofs about the encoding (30_encoding.md): decode and encode, the length, unused bytes, register operands -/

namespace Sys2Proof

/-! #### The decoder's answer, and the round trip -/

/-- Everything decode can accept: the dispatch on the first three bytes, with 0 for those that are missing, where none of the
instruction's own bytes is missing (30_encoding.md R80, R81). -/
theorem decode_eq_ok_iff {bytes rest : List Byte} {i : Instr} :
    decode bytes = .ok (i, rest) ↔ ∃ op tail, bytes = op :: tail ∧
      decodeTriple op (tail.getD 0 0) (tail.getD 1 0) = i ∧ i.length ≤ tail.length + 1 ∧ tail.drop (i.length - 1) = rest := by
  cases bytes with
  | nil => exact iff_of_false nofun nofun
  | cons op tail =>
    rw [decode]
    split
    · next hshort =>
      refine iff_of_false nofun ?_
      rintro ⟨_, _, ⟨⟩, rfl, hle, -⟩
      exact absurd hshort (Nat.not_lt.mpr hle)
    · next hlong =>
      constructor
      · intro h
        cases h
        exact ⟨op, tail, rfl, rfl, Nat.not_lt.mp hlong, rfl⟩
      · rintro ⟨_, _, ⟨⟩, rfl, -, rfl⟩
        rfl

/-- A well-formed instruction is what the dispatch makes of its own bytes, whatever follows them. -/
theorem decode_encode_append {i : Instr} (hi : i.wf = true) (rest : List Byte) :
    decode (encode i ++ rest) = .ok (i, rest) := by
  rw [decode_eq_ok_iff]
  cases i with
  | unrecognized op =>
    have hop : op ∉ recognizedOpcodes := by simpa [Instr.wf] using hi
    exact ⟨op, rest, rfl, decodeTriple_unrecognized op _ _ hop, Nat.le_add_left .., rfl⟩
  | _ => exact ⟨_, _, rfl, rfl, Nat.le_add_left .., rfl⟩

/-- Settles O6: the dispatch gives the instruction back, and the drop of its length leaves what follows. -/
theorem decodeOfEncodeIsTheInstruction : Obligations.DecodeOfEncodeIsTheInstruction :=
  fun _ rest hi => decode_encode_append hi rest

/-- The encoding of what the dispatch answers is those of the three bytes its length covers (30_encoding.md R80, R91). -/
theorem encode_decodeTriple (op a b : Byte) :
    encode (decodeTriple op a b) = [op, a, b].take (decodeTriple op a b).length := by
  rcases decodeTriple_cases op a b with
    ⟨rfl, h⟩ | ⟨rfl, h⟩ | ⟨rfl, h⟩ | ⟨rfl, h⟩ | ⟨rfl, h⟩ | ⟨rfl, h⟩ | ⟨rfl, h⟩ | ⟨_, h⟩ <;> rw [h] <;> rfl

/-- Bytes filled in by the decoder stand behind those that are there. -/
theorem take_getD_eq_take (op : Byte) (tail : List Byte) {n : Nat} (hn : n ≤ 3) (hle : n ≤ tail.length + 1) :
    [op, tail.getD 0 0, tail.getD 1 0].take n = (op :: tail).take n := by
  match tail with
  | [] =>
    change n ≤ 1 at hle
    interval_cases n <;> rfl
  | [a] =>
    change n ≤ 2 at hle
    interval_cases n <;> rfl
  | a :: b :: rest => interval_cases n <;> rfl

/-- Settles O7: the encoding is the bytes the length covers, and the decoder drops exactly those. -/
theorem encodeOfDecodeIsTheBytes : Obligations.EncodeOfDecodeIsTheBytes := by
  intro bytes rest i h
  obtain ⟨op, tail, rfl, rfl, hle, rfl⟩ := decode_eq_ok_iff.mp h
  refine ⟨decodeTriple_wf .., ?_⟩
  obtain ⟨hpos, hmax⟩ := length_bounds (decodeTriple op (tail.getD 0 0) (tail.getD 1 0))
  rw [encode_decodeTriple, take_getD_eq_take op tail hmax hle]
  generalize (decodeTriple op (tail.getD 0 0) (tail.getD 1 0)).length = n at hpos
  calc op :: tail = (op :: tail).take n ++ (op :: tail).drop n := (List.take_append_drop ..).symm
    _ = (op :: tail).take n ++ tail.drop (n - 1) := by rw [List.drop_cons hpos]

/-- Settles O5: each line is the encoding of its instruction, followed by the bytes that are left. -/
theorem tableWordsDecode : Obligations.TableWordsDecode := fun a b =>
  ⟨decode_encode_append (i := .halt) rfl [a],
    decode_encode_append (i := .loadImmediate a b) rfl [],
    decode_encode_append (i := .printRegister a) rfl [],
    decode_encode_append (i := .add a b) rfl [],
    decode_encode_append (i := .multiply a b) rfl [],
    decode_encode_append (i := .push a) rfl [],
    decode_encode_append (i := .pop a) rfl [],
    decode_encode_append (i := .unrecognized 0b10000011) rfl [a]⟩

/-! #### The length -/

/-- The length column, by the opcode byte alone (30_encoding.md R87). -/
theorem length_decodeTriple (op a b : Byte) : (decodeTriple op a b).length =
    if op = 0x01 then 1 else if op = 0x47 ∨ op = 0x45 ∨ op = 0x46 then 2
    else if op = 0x82 ∨ op = 0xA0 ∨ op = 0xA2 then 3 else 1 := by
  rcases decodeTriple_cases op a b with
    ⟨rfl, h⟩ | ⟨rfl, h⟩ | ⟨rfl, h⟩ | ⟨rfl, h⟩ | ⟨rfl, h⟩ | ⟨rfl, h⟩ | ⟨rfl, h⟩ | ⟨hn, h⟩ <;> rw [h]
  on_goal 8 =>
    rw [mem_recognizedOpcodes] at hn
    rw [if_neg (by tauto), if_neg (by tauto), if_neg (by tauto), Instr.length]
  all_goals rfl

/-- The dispatch reads no operand byte beyond the length of what it answers (30_encoding.md R91). -/
theorem decodeTriple_congr {op a b a' b' : Byte} (ha : 2 ≤ (decodeTriple op a b).length → a' = a)
    (hb : 3 ≤ (decodeTriple op a b).length → b' = b) : decodeTriple op a' b' = decodeTriple op a b := by
  rcases decodeTriple_cases op a b with
    ⟨rfl, -⟩ | ⟨rfl, -⟩ | ⟨rfl, -⟩ | ⟨rfl, -⟩ | ⟨rfl, -⟩ | ⟨rfl, -⟩ | ⟨rfl, -⟩ | ⟨hn, h⟩
  · rfl
  · rw [ha (Nat.le_succ 2), hb (Nat.le_refl 3)]
  · exact congrArg Instr.printRegister (ha (Nat.le_refl 2))
  · rw [ha (Nat.le_succ 2), hb (Nat.le_refl 3)]
  · rw [ha (Nat.le_succ 2), hb (Nat.le_refl 3)]
  · exact congrArg Instr.push (ha (Nat.le_refl 2))
  · exact congrArg Instr.pop (ha (Nat.le_refl 2))
  · rw [h, decodeTriple_unrecognized op a' b' hn]

end Sys2Proof

namespace Sys2Proof.Machine

open Sys2Proof

/-- Settles O8: the column of lengths, and the pc after an effect that did not raise. -/
theorem lengthIsByTheOpcodeByte : Obligations.LengthIsByTheOpcodeByte := by
  refine ⟨length_decodeTriple, fun op a b s t _ h hf => ?_⟩
  rcases effect_pc (effect_of_exec h) with ⟨c, n, rfl⟩ | ⟨hpc, -⟩
  · cases hf
  · exact hpc

/-! #### Bytes beyond the length -/

/-- A store to one fetch address leaves the other fetched bytes. -/
theorem memWrite_fetchByte_ne (s : State) (v : Byte) {j k : Nat} (hj : j ≤ 2) (hk : k ≤ 2) (h : j ≠ k) :
    (s.memWrite (BitVec.ofNat 8 (s.pc + k)) v).fetchByte j = s.fetchByte j :=
  memWrite_memRead_ne s v (fetchAddress_ne s.pc hj hk h)

/-- A fetched byte beyond the instruction's length does not decide what is fetched. -/
theorem memWrite_fetched_of_length_le (s : State) (v : Byte) {k : Nat} (hlen : s.fetched.length ≤ k) (hk : k ≤ 2) :
    (s.memWrite (BitVec.ofNat 8 (s.pc + k)) v).fetched = s.fetched := by
  have hpos := (length_bounds s.fetched).1
  unfold State.fetched at *
  rw [memWrite_fetchByte_ne s v (Nat.zero_le 2) hk (by omega)]
  refine decodeTriple_congr (fun h2 => ?_) fun h3 => ?_
  · exact memWrite_fetchByte_ne s v (Nat.le_succ 1) hk (by omega)
  · omega

/-- Settles O9: the dispatch does not read the byte, and the check of the addresses comes before memory is read. -/
theorem bytesBeyondTheLengthAreIgnored : Obligations.BytesBeyondTheLengthAreIgnored :=
  ⟨fun s _ v _ hlen hk => memWrite_fetched_of_length_le s v hlen hk,
    fun s m hr hf hp => step_of_fetchOutOfRange (s := { s with mem := m }) ((mayStep_iff _).mpr ⟨hr, hf⟩) hp⟩

/-! #### Register operands -/

/-- With operand A a register, operand B raises when it is above 7 (30_encoding.md R90). -/
theorem withRegs_raises_second {a b : Byte} (s : State) (go : RegIdx → RegIdx → Result) (ha : a.toNat ≤ 7)
    (hb : 7 < b.toNat) : withRegs a b s go = .next (s.raise .registerIndexOutOfRange b.toNat) := by
  rcases regIndex_cases a with ⟨r, rfl⟩ | hgt
  · rw [withRegs, withReg_regByte, withReg_raises b s _ hb]
  · omega

/-- LOAD-IMMEDIATE into a register that exists, whatever its literal (42_data_movement.md R135). -/
theorem exec_loadImmediate_of_le {a : Byte} (ha : a.toNat ≤ 7) (imm : Byte) (s : State) :
    ∃ r, exec (.loadImmediate a imm) s = .next ((s.setReg r imm).advance 3) := by
  rcases regIndex_cases a with ⟨r, rfl⟩ | hgt
  · exact ⟨r, withReg_regByte ..⟩
  · omega

/-- Settles O29: operand A is checked first by every form that has one, operand B next; a literal is not checked. -/
theorem registerIndexIsChecked : Obligations.RegisterIndexIsChecked := by
  refine ⟨fun s a b ha => ?_, fun s a b ha hb => ?_, fun s a b op ha => ?_⟩
  · have hA (go : RegIdx → Result) := withReg_raises a s go ha
    exact ⟨hA _, hA _, hA _, hA _, hA _, hA _⟩
  · exact ⟨withRegs_raises_second s _ ha hb, withRegs_raises_second s _ ha hb⟩
  · obtain ⟨r, hload⟩ := exec_loadImmediate_of_le ha b s
    exact ⟨⟨_, hload, rfl⟩, ⟨_, rfl, rfl⟩, _, rfl, rfl⟩

end Sys2Proof.Machine

/-! ### Proofs about the execution cycle (40_execution_cycle.md): the loop, the fetch, the pc, the events, the end of a run -/

namespace Sys2Proof.Machine

open Sys2Proof

/-! #### When a step is taken, and what it is -/

/-- A core that has a reason to take no step answers that reason. -/
theorem step_of_stopReason {s : State} {r : Fault} (h : s.stopReason = some r) : step s = .fault r := by
  unfold step cycle
  rw [h]

/-- A core that may step answers a next state. -/
theorem exists_step {s : State} (hm : s.mayStep = true) : ∃ t, step s = .next t := by
  rcases Nat.lt_or_ge 253 s.pc with hp | hp
  · exact ⟨_, step_of_fetchOutOfRange hm hp⟩
  · obtain ⟨t, ht, -⟩ := exec_effect s.fetched s
    exact ⟨t, (step_of_fetchInRange hm hp).trans ht⟩

/-- All a step can do to a running core: raise, or complete the fetched instruction (40_execution_cycle.md R115). -/
theorem step_raises_or_completes {s t : State} (h : step s = .next t) :
    (∃ c n, t = s.raise c n) ∨
    (t.fault = none ∧ s.pc ≤ 253 ∧ t.pc = s.pc + s.fetched.length ∧ Effect s.fetched s t) := by
  obtain ⟨hm, ⟨-, rfl⟩ | ⟨hp, he⟩⟩ := step_next h
  · exact .inl ⟨_, _, rfl⟩
  · rcases effect_pc he with hraise | ⟨hpc, hf⟩
    · exact .inl hraise
    · exact .inr ⟨hf.trans ((mayStep_iff s).mp hm).2, hp, hpc, he⟩

/-- A step that left the latch empty completed the fetched instruction. -/
theorem step_completes {s t : State} (h : step s = .next t) (hf : t.fault = none) :
    s.pc ≤ 253 ∧ t.pc = s.pc + s.fetched.length ∧ Effect s.fetched s t := by
  rcases step_raises_or_completes h with ⟨c, n, rfl⟩ | ⟨-, hdone⟩
  · cases hf
  · exact hdone

/-- A step that set the latch raised, and did nothing else (60_exceptions.md R189). -/
theorem step_raises {s t : State} (h : step s = .next t) (hf : t.fault ≠ none) : ∃ c n, t = s.raise c n := by
  rcases step_raises_or_completes h with hraise | ⟨hnone, -⟩
  · exact hraise
  · exact absurd hnone hf

/-- Settles O12: the loop's test is the condition under which a step is answered. -/
theorem loopStepsExactlyWhileRunning : Obligations.LoopStepsExactlyWhileRunning := by
  refine ⟨fun s => ?_, exists_step rfl, fun s t k h => run_succ (step_next h).1 h, fun s k h => ?_⟩
  · rw [← mayStep_iff]
    exact ⟨fun ⟨_, h⟩ => (step_next h).1, exists_step⟩
  · rw [← mayStep_iff, Bool.not_eq_true] at h
    exact run_stopped k s h

/-- Settles O13: the check of the fetch addresses comes before memory is read. -/
theorem fetchRangeIsChecked : Obligations.FetchRangeIsChecked :=
  fun s hr hf hp => step_of_fetchOutOfRange ((mayStep_iff s).mpr ⟨hr, hf⟩) hp

/-- Settles O17: the latch, and then the running flag, are looked at before anything else. -/
theorem endedCoreTakesNoStep : Obligations.EndedCoreTakesNoStep := by
  refine ⟨fun s r h => step_of_stopReason (by rw [State.stopReason, h]), fun s h => ?_⟩
  have hend : s.running = false ∧ s.fault = none := by simpa [State.isFinal] using h
  obtain ⟨hr, hf⟩ := hend
  exact ⟨step_of_stopReason (by rw [State.stopReason, hf, hr]; rfl),
    fun k => run_stopped k s (by rw [State.mayStep, hr, Bool.false_and])⟩

/-! #### The fetched instruction -/

/-- The three fetched bytes always decode, to the fetched instruction (40_execution_cycle.md R112, R114). -/
theorem decode_fetchBytes (s : State) :
    decode [s.fetchByte 0, s.fetchByte 1, s.fetchByte 2] =
      .ok (s.fetched, [s.fetchByte 1, s.fetchByte 2].drop (s.fetched.length - 1)) :=
  decode_eq_ok_iff.mpr ⟨_, _, rfl, rfl, (length_bounds s.fetched).2, rfl⟩

/-- Settles O10: three bytes are enough for every instruction, and the step is the arm of the decoded one. -/
theorem stepRunsTheDecodedInstruction : Obligations.StepRunsTheDecodedInstruction := by
  refine ⟨fun s => ⟨_, _, decode_fetchBytes s, decodeTriple_wf ..⟩, fun s i rest hr hf hp hd _ => ?_⟩
  have hi : s.fetched = i := congrArg Prod.fst (Except.ok.inj ((decode_fetchBytes s).symm.trans hd))
  rw [← hi]
  exact step_of_fetchInRange ((mayStep_iff s).mpr ⟨hr, hf⟩) hp

/-- PRINT-REGISTER is fetched only where its opcode stands at the pc. -/
theorem opcode_of_fetched_printRegister {s : State} {a : Byte} (h : s.fetched = .printRegister a) :
    s.fetchByte 0 = 0x47 := by
  have hb := head?_encode_fetched s
  rw [h] at hb
  exact (Option.some.inj hb).symm

/-- UNRECOGNIZED is fetched only where no row's opcode stands at the pc (30_encoding.md R88). -/
theorem opcode_of_fetched_unrecognized {s : State} {op : Byte} (h : s.fetched = .unrecognized op) :
    s.fetchByte 0 ∉ recognizedOpcodes := by
  have hb := head?_encode_fetched s
  have hwf : s.fetched.wf = true := decodeTriple_wf ..
  rw [h] at hb hwf
  have hop : op = s.fetchByte 0 := Option.some.inj hb
  simpa [Instr.wf, hop] using hwf

/-- The length of the fetched instruction, by its opcode byte (30_encoding.md R87). -/
theorem length_fetched (s : State) : s.fetched.length =
    if s.fetchByte 0 ∈ ([0x82, 0xA0, 0xA2] : List Byte) then 3
    else if s.fetchByte 0 ∈ ([0x45, 0x46, 0x47] : List Byte) then 2 else 1 := by
  unfold State.fetched
  generalize s.fetchByte 0 = op
  rcases decodeTriple_cases op (s.fetchByte 1) (s.fetchByte 2) with
    ⟨rfl, h⟩ | ⟨rfl, h⟩ | ⟨rfl, h⟩ | ⟨rfl, h⟩ | ⟨rfl, h⟩ | ⟨rfl, h⟩ | ⟨rfl, h⟩ | ⟨hn, h⟩ <;> rw [h]
  on_goal 8 =>
    have hsub {l : List Byte} (hl : l ⊆ recognizedOpcodes) : op ∉ l := fun hop => hn (hl hop)
    rw [if_neg (hsub (by decide)), if_neg (hsub (by decide)), Instr.length]
  all_goals rfl

/-- Settles O14: a completed step passed the fetched instruction, a raise leaves the pc. -/
theorem pcAdvancesByTheLength : Obligations.PcAdvancesByTheLength := by
  refine fun s t h => ⟨fun hf => ?_, fun hf => ?_⟩
  · obtain ⟨-, hpc, -⟩ := step_completes h hf
    have hlen := (length_bounds s.fetched).1
    exact ⟨by omega, length_fetched s ▸ hpc⟩
  · obtain ⟨c, n, rfl⟩ := step_raises h hf
    rfl

/-! #### The event of a step -/

/-- PRINT-REGISTER, completed, emits the register its operand names and reports nothing (42_data_movement.md R136). -/
theorem effect_printRegister_events {a : Byte} {s t : State} (h : Effect (.printRegister a) s t) (hf : t.fault = none) :
    t.diag = s.diag ∧ ∃ r : RegIdx, a = regByte r ∧ t.out = s.out ++ [s.reg r] := by
  cases h with
  | raised => cases hf
  | printRegister r => exact ⟨rfl, r, rfl, rfl⟩

/-- UNRECOGNIZED reports the pc and emits nothing (45_unrecognized.md R175). -/
theorem effect_unrecognized_events {op : Byte} {s t : State} (h : Effect (.unrecognized op) s t) :
    t.out = s.out ∧ t.diag = s.diag ++ [s.pc] := by
  cases h with
  | raised _ _ _ _ hu => exact absurd rfl (hu op)
  | unrecognized => exact ⟨rfl, rfl⟩

/-- Settles O15, from the effect of the fetched instruction. -/
theorem atMostOneEventPerStep : Obligations.AtMostOneEventPerStep := by
  refine fun s t h => ⟨fun hf => ?_, fun hf hop => ?_, fun hf hop => ?_, fun hf hop hne => ?_⟩
  · obtain ⟨c, n, rfl⟩ := step_raises h hf
    exact ⟨rfl, rfl⟩
  all_goals obtain ⟨-, -, he⟩ := step_completes h hf
  · have hi : s.fetched = .printRegister (s.fetchByte 1) := by rw [State.fetched, hop]; rfl
    exact effect_printRegister_events (hi ▸ he) hf
  · have hi : s.fetched = .unrecognized (s.fetchByte 0) := decodeTriple_unrecognized _ _ _ hop
    exact effect_unrecognized_events (hi ▸ he)
  · exact ⟨effect_out he fun _ hi => hne (opcode_of_fetched_printRegister hi),
      effect_diag he fun _ hi => opcode_of_fetched_unrecognized hi hop⟩

/-! #### The end of a run -/

/-- After a step the core has ended, or the pc has grown, from a fetch in range: what makes every run end. -/
theorem step_ends_or_advances {s t : State} (h : step s = .next t) :
    t.mayStep = false ∨ (s.pc ≤ 253 ∧ s.pc < t.pc) := by
  rcases step_raises_or_completes h with ⟨c, n, rfl⟩ | ⟨-, hp, hpc, -⟩
  · exact .inl (Bool.and_false _)
  · have hlen := (length_bounds s.fetched).1
    exact .inr ⟨hp, by omega⟩

/-- More attempts than there are fetch addresses from the pc upward end every run, all in the same state
(40_execution_cycle.md R120). -/
theorem exists_ended_run (n : Nat) {s : State} (hn : 254 - s.pc < n) :
    ∃ t, t.mayStep = false ∧ ∀ k, n ≤ k → run k s = .next t := by
  induction n generalizing s with
  | zero => exact absurd hn (Nat.not_lt_zero _)
  | succ n ih =>
    cases hm : s.mayStep with
    | false => exact ⟨s, hm, fun k _ => run_stopped k s hm⟩
    | true =>
      obtain ⟨u, hu⟩ := exists_step hm
      obtain ⟨t, ht, hrun⟩ : ∃ t, t.mayStep = false ∧ ∀ k, n ≤ k → run k u = .next t := by
        rcases step_ends_or_advances hu with hend | ⟨hp, hlt⟩
        · exact ⟨u, hend, fun k _ => run_stopped k u hend⟩
        · exact ih (by omega)
      refine ⟨t, ht, fun k hk => ?_⟩
      obtain ⟨j, rfl⟩ := Nat.exists_eq_succ_of_ne_zero (Nat.ne_zero_of_lt hk)
      exact (run_succ hm hu).trans (hrun j (Nat.le_of_succ_le_succ hk))

/-- A run that has not ended began in a core that may step. -/
theorem mayStep_of_run {k : Nat} {s t : State} (h : run k s = .next t) (ht : t.mayStep = true) : s.mayStep = true := by
  cases hm : s.mayStep with
  | true => rfl
  | false =>
    obtain rfl := Host.Outcome.next.inj ((run_stopped k s hm).symm.trans h)
    exact hm.symm.trans ht

/-- While a run has not ended, every attempt has moved the pc. -/
theorem pc_add_le_of_run {k : Nat} {s t : State} (h : run k s = .next t) (ht : t.mayStep = true) : s.pc + k ≤ t.pc := by
  induction k generalizing s with
  | zero => exact Nat.le_of_eq (congrArg State.pc (Host.Outcome.next.inj h))
  | succ k ih =>
    have hm := mayStep_of_run h ht
    obtain ⟨u, hu⟩ := exists_step hm
    rw [run_succ hm hu] at h
    rcases step_ends_or_advances hu with hend | ⟨-, hlt⟩
    · exact absurd (hend.symm.trans (mayStep_of_run h ht)) Bool.false_ne_true
    · have := ih h
      omega

/-- A core that may not step is final or faulted. -/
theorem final_or_faulted {s : State} (h : s.mayStep = false) : s.isFinal = true ∨ s.isFaulted = true := by
  unfold State.mayStep at h
  unfold State.isFinal State.isFaulted
  cases hf : s.fault with
  | some r => exact .inr rfl
  | none => exact .inl (by simpa [hf] using h)

/-- Settles O37: the pc bounds the attempts left, and a step completes only from a pc of at most 253. -/
theorem everyRunEnds : Obligations.EveryRunEnds := by
  intro s
  obtain ⟨t, hend, hrun⟩ := exists_ended_run 255 (s := s) (by omega)
  have hlast := hrun 255 (Nat.le_refl _)
  refine ⟨⟨t, hlast, final_or_faulted hend⟩, fun k hk => (hrun k hk).trans hlast.symm, fun u hu hr hf => ?_,
    fun k u v hu hstep hf => ?_⟩
  · obtain rfl := Host.Outcome.next.inj (hlast.symm.trans hu)
    exact Bool.false_ne_true (hend.symm.trans ((mayStep_iff t).mpr ⟨hr, hf⟩))
  · obtain ⟨hm, -⟩ := step_next hstep
    obtain ⟨hp, -⟩ := step_completes hstep hf
    exact Nat.le_trans (pc_add_le_of_run hu hm) hp

/-! #### The pseudocode's reading of the state: its numbers are the bytes the model holds -/

/-- A byte, read as a number and written back. -/
theorem ofNat_toNat_byte (v : Byte) : BitVec.ofNat 8 v.toNat = v :=
  (BitVec.ofNat_toNat 8 v).trans (BitVec.setWidth_eq v)

/-- A number below 256, written as a byte and read back. -/
theorem toNat_ofNat_byte {n : Nat} (h : n < 256) : (BitVec.ofNat 8 n).toNat = n :=
  (BitVec.toNat_ofNat ..).trans (Nat.mod_eq_of_lt h)

/-- The byte that names a register is its number. -/
theorem regByte_toNat (r : RegIdx) : (regByte r).toNat = r.val :=
  toNat_ofNat_byte (by omega)

/-- The pseudocode reads register `r` as the number of the byte it holds. -/
theorem pseudo_x_eq (s : State) (r : RegIdx) : Pseudo.x s r.val = (s.reg r).toNat := by
  simp [Pseudo.x, State.reg]

/-- The pseudocode's `x[7]` is the stack pointer. -/
theorem pseudo_x_sp (s : State) : Pseudo.x s 7 = s.sp.toNat :=
  pseudo_x_eq s 7

/-- The pseudocode's register write stores the number modulo 256, in that register. -/
theorem pseudo_setX_eq (s : State) (r : RegIdx) (v : Nat) : Pseudo.setX s r.val v = s.setReg r (BitVec.ofNat 8 v) := by
  simp [Pseudo.setX, State.setReg, Vector.setIfInBounds, Array.setIfInBounds]

/-- The pseudocode's decrement of a stack pointer other than 0 writes the address PUSH stores to. -/
theorem pseudo_setX_decrement {s : State} (h : s.sp ≠ 0) :
    Pseudo.setX s 7 (s.sp.toNat - 1) = s.setReg 7 (pushAddress s) := by
  have hdec : BitVec.ofNat 8 (s.sp.toNat - 1) = pushAddress s := by
    unfold pushAddress
    bv_omega
  exact hdec ▸ pseudo_setX_eq s 7 _

/-- A fetched byte is the cell at its address, where that address exists (40_execution_cycle.md R112). -/
theorem pseudo_m_fetch {s : State} (hp : s.pc ≤ 253) {k : Nat} (hk : k ≤ 2) :
    Pseudo.m s (s.pc + k) = (s.fetchByte k).toNat := by
  have haddr : (BitVec.ofNat 8 (s.pc + k)).toNat = s.pc + k := toNat_ofNat_byte (by omega)
  show (Memory.cellAt s.mem (s.pc + k)).toNat = (Memory.cellAt s.mem (BitVec.ofNat 8 (s.pc + k)).toNat).toNat
  rw [haddr]

/-- The pseudocode's store of a byte is the model's. -/
theorem pseudo_setM_eq (s : State) (a v : Byte) : Pseudo.setM s a.toNat v.toNat = s.memWrite a v := by
  rw [Pseudo.setM, ofNat_toNat_byte, ofNat_toNat_byte]
  rfl

/-! #### Arm by arm: the meaning of an instruction is the pseudocode's line -/

/-- The check of a register operand is the pseudocode's comparison with 7 (30_encoding.md R90). -/
theorem withReg_eq_ite {a : Byte} {s t : State} {go : RegIdx → Result} (h : ∀ r, a = regByte r → go r = .next t) :
    withReg a s go = .next (if a.toNat > 7 then Pseudo.fail s .registerIndexOutOfRange a.toNat else t) := by
  rcases withReg_cases a s go with ⟨r, rfl, hgo⟩ | ⟨ha, hraise⟩
  · have hle : ¬ (regByte r).toNat > 7 := by rw [regByte_toNat]; omega
    rw [if_neg hle, hgo, h r rfl]
  · rw [if_pos ha, hraise]
    rfl

/-- LOAD-IMMEDIATE (42_data_movement.md R135). -/
theorem execLoadImmediate_eq_pseudo (a imm : Byte) (s : State) : execLoadImmediate a imm s = .next
    (if a.toNat > 7 then Pseudo.fail s .registerIndexOutOfRange a.toNat
      else Pseudo.next (Pseudo.setX s a.toNat imm.toNat) 3) := by
  refine withReg_eq_ite fun r hr => ?_
  rw [hr, regByte_toNat, pseudo_setX_eq, ofNat_toNat_byte]
  rfl

/-- PRINT-REGISTER (42_data_movement.md R136). -/
theorem execPrintRegister_eq_pseudo (a : Byte) (s : State) : execPrintRegister a s = .next
    (if a.toNat > 7 then Pseudo.fail s .registerIndexOutOfRange a.toNat
      else Pseudo.next { s with out := s.out ++ [BitVec.ofNat 8 (Pseudo.x s a.toNat)] } 2) := by
  refine withReg_eq_ite fun r hr => ?_
  rw [hr, regByte_toNat, pseudo_x_eq, ofNat_toNat_byte]
  rfl

/-- Both ALU instructions: `f` is the pseudocode's operation on numbers, which the ALU takes modulo 256 (43_alu.md R146). -/
theorem alu_eq_pseudo {op : AluOp} {f : Nat → Nat → Nat}
    (hf : ∀ x y : Byte, (aluResult op x y).toNat = f x.toNat y.toNat % 256) (a b : Byte) (s : State) :
    withRegs a b s (fun ra rb => .next ((s.alu op ra rb).advance 3)) = .next
      (if a.toNat > 7 then Pseudo.fail s .registerIndexOutOfRange a.toNat
        else if b.toNat > 7 then Pseudo.fail s .registerIndexOutOfRange b.toNat
        else Pseudo.next (Pseudo.setX s a.toNat (f (Pseudo.x s a.toNat) (Pseudo.x s b.toNat) % 256)) 3) := by
  refine withReg_eq_ite fun r hr => withReg_eq_ite fun q hq => ?_
  rw [hr, hq, regByte_toNat, regByte_toNat, pseudo_x_eq, pseudo_x_eq, ← hf, pseudo_setX_eq, ofNat_toNat_byte]
  rfl

/-- PUSH: the decrement first, so that the address and a pushed R7 are read after it (44_stack.md R161). -/
theorem execPush_eq_pseudo (a : Byte) (s : State) : execPush a s = .next
    (if a.toNat > 7 then Pseudo.fail s .registerIndexOutOfRange a.toNat
      else if Pseudo.x s 7 = 0 then Pseudo.fail s .stackOutOfRange 0
      else Pseudo.next (Pseudo.setM (Pseudo.setX s 7 (Pseudo.x s 7 - 1)) (Pseudo.x (Pseudo.setX s 7 (Pseudo.x s 7 - 1)) 7)
        (Pseudo.x (Pseudo.setX s 7 (Pseudo.x s 7 - 1)) a.toNat)) 2) := by
  refine withReg_eq_ite fun r hr => congrArg _ ?_
  rw [hr, regByte_toNat, pseudo_x_sp]
  rcases pushReg_cases r s with ⟨hz, hpush⟩ | ⟨hnz, hpush⟩
  · rw [hpush, hz]
    rfl
  · have hpos : s.sp.toNat ≠ 0 := fun h => hnz (BitVec.eq_of_toNat_eq h)
    have hsp : (s.setReg 7 (pushAddress s)).sp = pushAddress s := setReg_reg_same s 7 _
    rw [hpush, if_neg hpos, pseudo_setX_decrement hnz, pseudo_x_sp, hsp, pseudo_x_eq, pseudo_setM_eq, setReg_reg]
    rfl

/-- POP: the load first, the increment second, of the loaded byte where the register is R7 (44_stack.md R162). -/
theorem execPop_eq_pseudo (a : Byte) (s : State) : execPop a s = .next
    (if a.toNat > 7 then Pseudo.fail s .registerIndexOutOfRange a.toNat
      else if (if a.toNat = 7 then Pseudo.m s (Pseudo.x s 7) else Pseudo.x s 7) + 1 > 255 then
        Pseudo.fail s .stackOutOfRange 255
      else Pseudo.next (Pseudo.setX (Pseudo.setX s a.toNat (Pseudo.m s (Pseudo.x s 7))) 7
        ((if a.toNat = 7 then Pseudo.m s (Pseudo.x s 7) else Pseudo.x s 7) + 1)) 2) := by
  refine withReg_eq_ite fun r hr => congrArg _ ?_
  have hload : Pseudo.m s s.sp.toNat = (s.memRead s.sp).toNat := rfl
  have hinc : (if r.val = 7 then (s.memRead s.sp).toNat else s.sp.toNat) + 1 = popIncrement r s := by
    rw [popIncrement_eq, apply_ite BitVec.toNat]
    simp only [Fin.ext_iff]
    rfl
  rw [hr, regByte_toNat, pseudo_x_sp, hload, hinc, pseudo_setX_eq, ofNat_toNat_byte]
  rcases popReg_cases r s with ⟨hover, hpop⟩ | ⟨hle, hpop⟩
  · rw [hpop, if_pos (by omega)]
    rfl
  · rw [hpop, if_neg (by omega)]
    exact congrArg (State.advance · 2) (pseudo_setX_eq _ 7 _).symm

/-- With the fetch in range, the fetched instruction's arm is the pseudocode's: the dispatch on the byte is the one on its
number. -/
theorem exec_fetched_eq_pseudo {s : State} (hp : s.pc ≤ 253) : exec s.fetched s = .next (Pseudo.step s) := by
  have hop : Pseudo.m s s.pc = (s.fetchByte 0).toNat := pseudo_m_fetch hp (Nat.zero_le 2)
  unfold Pseudo.step State.fetched
  rw [if_neg (Nat.not_lt.mpr hp), hop, pseudo_m_fetch hp (Nat.le_succ 1), pseudo_m_fetch hp (Nat.le_refl 2)]
  generalize s.fetchByte 0 = op, s.fetchByte 1 = a, s.fetchByte 2 = b
  rcases decodeTriple_cases op a b with
    ⟨rfl, h⟩ | ⟨rfl, h⟩ | ⟨rfl, h⟩ | ⟨rfl, h⟩ | ⟨rfl, h⟩ | ⟨rfl, h⟩ | ⟨rfl, h⟩ | ⟨hn, h⟩ <;> rw [h]
  · rfl
  · exact execLoadImmediate_eq_pseudo a b s
  · exact execPrintRegister_eq_pseudo a s
  · exact alu_eq_pseudo aluResult_add_toNat a b s
  · exact alu_eq_pseudo aluResult_multiply_toNat a b s
  · exact execPush_eq_pseudo a s
  · exact execPop_eq_pseudo a s
  · have hne : ¬ op.toNat = 0x01 ∧ ¬ op.toNat = 0x45 ∧ ¬ op.toNat = 0x46 ∧ ¬ op.toNat = 0x47 ∧ ¬ op.toNat = 0x82 ∧
        ¬ op.toNat = 0xA0 ∧ ¬ op.toNat = 0xA2 := by
      simpa [mem_recognizedOpcodes, ← BitVec.toNat_inj] using hn
    simp only [hne, if_false]
    rfl

/-- Settles O11: out of range both raise, in range the fetched instruction's arm is the pseudocode's. -/
theorem stepIsTheExpandedPseudocode : Obligations.StepIsTheExpandedPseudocode := by
  intro s hr hf
  have hm : s.mayStep = true := (mayStep_iff s).mpr ⟨hr, hf⟩
  rcases Nat.lt_or_ge 253 s.pc with hp | hp
  · rw [step_of_fetchOutOfRange hm hp, Pseudo.step, if_pos hp]
    rfl
  · rw [step_of_fetchInRange hm hp, exec_fetched_eq_pseudo hp]

end Sys2Proof.Machine

/-! ### Proofs about HALT (41_halt.md), and the clause every instruction's rule shares with it at the top of memory -/

namespace Sys2Proof.Machine

open Sys2Proof

/-- An opcode byte at 254 or 255 is not executed, whatever the opcode is (40_execution_cycle.md R113). -/
theorem topOfMemoryFaults (op : Byte) : TopOfMemoryFaults op :=
  fun s hr hf hp _ => fetchRangeIsChecked s hr hf (by omega)

/-- No step follows a final state (40_execution_cycle.md R117). -/
theorem step_ne_next_of_isFinal {s : State} (h : s.isFinal = true) (u : State) : step s ≠ .next u := by
  rw [(endedCoreTakesNoStep.2 s h).1]
  exact nofun

/-- HALT leaves the core in a final state when no fault is latched (41_halt.md R130). -/
theorem isFinal_of_exec_halt {s t : State} (hf : s.fault = none) (h : exec .halt s = .next t) : t.isFinal = true := by
  have hrun : t.running = false := effect_halt_running (effect_of_exec h)
  have hlatch : t.fault = none := by
    cases h
    exact hf
  simp [State.isFinal, hrun, hlatch]

/-- Settles O18: HALT's arm clears the flag and advances the pc by 1, and a core so ended takes no step. -/
theorem haltStopsTheMachine : Obligations.HaltStopsTheMachine := by
  refine ⟨decodeTriple_halt, fun _ => rfl, fun s t hf h => ?_, topOfMemoryFaults 0x01⟩
  have hfinal := isFinal_of_exec_halt hf h
  exact ⟨hfinal, step_ne_next_of_isFinal hfinal⟩

end Sys2Proof.Machine

/-! ### Proofs about data movement (42_data_movement.md): LOAD-IMMEDIATE and PRINT-REGISTER -/

namespace Sys2Proof.Machine

open Sys2Proof

/-- LOAD-IMMEDIATE into register `r` writes its literal there and advances by its length (42_data_movement.md R135). -/
theorem exec_loadImmediate (s : State) (r : RegIdx) (imm : Byte) :
    exec (.loadImmediate (regByte r) imm) s = .next ((s.setReg r imm).advance 3) :=
  withReg_regByte ..

/-- PRINT-REGISTER of register `r` emits its value and advances by its length (42_data_movement.md R136). -/
theorem exec_printRegister (s : State) (r : RegIdx) :
    exec (.printRegister (regByte r)) s = .next ((s.emitOut (s.reg r)).advance 2) :=
  withReg_regByte ..

/-- Settles O19: a register operand goes to the write, an operand above 7 to the raise of the operand check. -/
theorem loadImmediateWritesTheLiteral : Obligations.LoadImmediateWritesTheLiteral :=
  ⟨decodeTriple_loadImmediate, exec_loadImmediate, fun s _ _ ha => withReg_raises _ s _ ha, topOfMemoryFaults 0x82⟩

/-- Settles O20: a register operand goes to the event, an operand above 7 to the raise of the operand check. -/
theorem printRegisterEmitsTheValue : Obligations.PrintRegisterEmitsTheValue :=
  ⟨decodeTriple_printRegister, exec_printRegister, fun s _ ha => withReg_raises _ s _ ha, topOfMemoryFaults 0x47⟩

/-- Settles O41: PRINT-REGISTER reads back the literal that LOAD-IMMEDIATE wrote to the same register. -/
theorem loadThenPrintEmitsTheLiteral : Obligations.LoadThenPrintEmitsTheLiteral := by
  intro s r imm
  refine ⟨_, _, exec_loadImmediate s r imm, exec_printRegister _ r, ?_, rfl⟩
  have hread : ((s.setReg r imm).advance 3).reg r = imm := setReg_reg_same s r imm
  exact congrArg (fun v => s.out ++ [v]) hread

end Sys2Proof.Machine

/-! ### Proofs about the ALU (43_alu.md): ADD and MULTIPLY -/

namespace Sys2Proof.Machine

open Sys2Proof

/-- ADD of two registers completes with the ALU's write and advances by its length (43_alu.md R147). -/
theorem exec_add (s : State) (r q : RegIdx) :
    exec (.add (regByte r) (regByte q)) s = .next ((s.alu .add r q).advance 3) :=
  withRegs_regByte ..

/-- MULTIPLY of two registers completes with the ALU's write and advances by its length (43_alu.md R148). -/
theorem exec_multiply (s : State) (r q : RegIdx) :
    exec (.multiply (regByte r) (regByte q)) s = .next ((s.alu .multiply r q).advance 3) :=
  withRegs_regByte ..

/-- After an ALU instruction its first register holds the result of the values both had before (43_alu.md R145). -/
theorem alu_advance_reg_same (s : State) (op : AluOp) (r q : RegIdx) (n : Nat) :
    ((s.alu op r q).advance n).reg r = aluResult op (s.reg r) (s.reg q) :=
  setReg_reg_same s r _

/-- After an ALU instruction every other register is as before (43_alu.md R145). -/
theorem alu_advance_reg_ne (s : State) (op : AluOp) {r p : RegIdx} (q : RegIdx) (n : Nat) (h : p ≠ r) :
    ((s.alu op r q).advance n).reg p = s.reg p :=
  setReg_reg_ne s r p _ h

/-- With operand A a register, an operand B above 7 raises (30_encoding.md R90). -/
theorem withRegs_regByte_raises (s : State) (go : RegIdx → RegIdx → Result) (r : RegIdx) {b : Byte} (hb : 7 < b.toNat) :
    withRegs (regByte r) b s go = .next (s.raise .registerIndexOutOfRange b.toNat) :=
  withRegs_raises_second s go ((regByte_toNat r).trans_le r.is_le) hb

/-- Neither operation distinguishes its operands (43_alu.md R150). -/
theorem aluResult_comm (op : AluOp) (x y : Byte) : aluResult op x y = aluResult op y x := by
  cases op with
  | add => exact congrArg (BitVec.ofNat 8) (Nat.add_comm ..)
  | multiply => exact congrArg (BitVec.ofNat 8) (Nat.mul_comm ..)

/-- The machine's subtraction: 255 is -1 modulo 256, so that its product with `y` is the additive inverse of `y`
(43_alu.md R150). -/
theorem aluResult_add_multiply_255 (x y : Byte) :
    (aluResult .add x (aluResult .multiply y 255)).toNat = (x.toNat + (256 - y.toNat)) % 256 := by
  have hy : y.toNat < 256 := y.isLt
  have h255 : (255 : Byte).toNat = 255 := rfl
  rw [aluResult_add_toNat, aluResult_multiply_toNat, h255]
  omega

/-- The value an ALU instruction writes to `r` from `r` and `q` is the one it writes to `q` from `q` and `r`. -/
theorem alu_advance_reg_comm (s : State) (op : AluOp) (r q : RegIdx) (n : Nat) :
    ((s.alu op r q).advance n).reg r = ((s.alu op q r).advance n).reg q := by
  rw [alu_advance_reg_same, alu_advance_reg_same, aluResult_comm]

/-- Settles O42: the ALU's result is commutative, and the ADD reads the product with 255 that the MULTIPLY wrote. -/
theorem aluValuesAreModulo256 : Obligations.AluValuesAreModulo256 := by
  refine ⟨fun s r q => ⟨_, _, exec_add s r q, exec_add s q r, alu_advance_reg_comm ..⟩,
    fun s r q => ⟨_, _, exec_multiply s r q, exec_multiply s q r, alu_advance_reg_comm ..⟩,
    fun s r q p hrq _ hp => ⟨_, _, exec_multiply s q p, exec_add _ r q, ?_⟩⟩
  rw [alu_advance_reg_same, alu_advance_reg_ne s .multiply p 3 hrq, alu_advance_reg_same, hp]
  exact aluResult_add_multiply_255 ..

/-- Settles O21: two register operands go to the ALU's write, otherwise the first one above 7 goes to the raise. -/
theorem addWritesTheSumModulo256 : Obligations.AddWritesTheSumModulo256 := by
  refine ⟨decodeTriple_add, fun s r q => ⟨_, exec_add s r q, ?_, fun p => alu_advance_reg_ne s .add q 3, rfl⟩,
    fun s a _ ha => withReg_raises a s _ ha, fun s r _ hb => withRegs_regByte_raises s _ r hb, topOfMemoryFaults 0xA0⟩
  rw [alu_advance_reg_same, aluResult_add_toNat]

/-- Settles O22: two register operands go to the ALU's write, otherwise the first one above 7 goes to the raise. -/
theorem multiplyWritesTheProductModulo256 : Obligations.MultiplyWritesTheProductModulo256 := by
  refine ⟨decodeTriple_multiply,
    fun s r q => ⟨_, exec_multiply s r q, ?_, fun p => alu_advance_reg_ne s .multiply q 3, rfl⟩,
    fun s a _ ha => withReg_raises a s _ ha, fun s r _ hb => withRegs_regByte_raises s _ r hb, topOfMemoryFaults 0xA2⟩
  rw [alu_advance_reg_same, aluResult_multiply_toNat]

end Sys2Proof.Machine

/-! ### Proofs about the stack (44_stack.md): PUSH and POP, their bounds, the round trip -/

namespace Sys2Proof.Machine

open Sys2Proof

/-! #### The stack pointer's steps -/

/-- The decrement of a byte other than 0 does not wrap (44_stack.md R163). -/
theorem toNat_sub_one {v : Byte} (h : v ≠ 0) : (v - 1).toNat = v.toNat - 1 := by
  bv_omega

/-- The increment of a byte other than 255 does not wrap (44_stack.md R163). -/
theorem toNat_add_one {v : Byte} (h : v ≠ 255) : (v + 1).toNat = v.toNat + 1 := by
  bv_omega

/-! #### PUSH -/

theorem exec_push_eq (s : State) (r : RegIdx) : exec (.push (regByte r)) s = .next (pushReg r s) :=
  withReg_regByte ..

/-- PUSH where the stack pointer is 0 raises, whatever its register (44_stack.md R163). -/
theorem exec_push_raises {s : State} (r : RegIdx) (h : s.reg 7 = 0) :
    exec (.push (regByte r)) s = .next (s.raise .stackOutOfRange 0) := by
  rcases pushReg_cases r s with ⟨-, hp⟩ | ⟨hnz, -⟩
  · rw [exec_push_eq, hp]
  · exact absurd h hnz

/-- After PUSH the stack pointer is the address it stored to. -/
theorem pushed_reg_sp (s : State) (r : RegIdx) : (s.pushed r).reg 7 = s.reg 7 - 1 :=
  setReg_reg_same s 7 _

/-- PUSH leaves every register but the stack pointer. -/
theorem pushed_reg_ne (s : State) (r : RegIdx) {p : RegIdx} (hp : p ≠ 7) : (s.pushed r).reg p = s.reg p :=
  setReg_reg_ne s 7 p _ hp

/-- PUSH stores its register, or the decremented stack pointer for R7 (44_stack.md R161). -/
theorem pushed_memRead_same (s : State) (r : RegIdx) :
    (s.pushed r).memRead (s.reg 7 - 1) = if r = 7 then s.reg 7 - 1 else s.reg r := by
  rw [pushed_memRead, if_pos rfl]

/-- PUSH leaves every cell but the one it stores to. -/
theorem pushed_memRead_ne (s : State) (r : RegIdx) {x : Byte} (hx : x ≠ s.reg 7 - 1) :
    (s.pushed r).memRead x = s.memRead x := by
  rw [pushed_memRead, if_neg hx]

/-- PUSH moves the stack pointer down by one. -/
theorem pushed_sp_toNat {s : State} (r : RegIdx) (h : s.reg 7 ≠ 0) :
    ((s.pushed r).reg 7).toNat = (s.reg 7).toNat - 1 := by
  rw [pushed_reg_sp, toNat_sub_one h]

/-- Settles O23: PUSH of a register leaves `State.pushed` or raises; an operand above 7 goes to the raise of the check. -/
theorem pushStoresBelowTheStackPointer : Obligations.PushStoresBelowTheStackPointer :=
  ⟨decodeTriple_push,
    fun s r h => ⟨s.pushed r, exec_push r h, pushed_sp_toNat r h, fun _ => pushed_reg_ne s r, pushed_memRead_same s r,
      fun _ => pushed_memRead_ne s r, rfl⟩,
    fun _ r h => exec_push_raises r h, fun s a ha => withReg_raises a s _ ha, topOfMemoryFaults 0x45⟩

/-! #### POP -/

/-- The byte POP of register `r` increments: the stack pointer, or for R7 the byte just loaded into it (44_stack.md R162). -/
def State.popBase (s : State) (r : RegIdx) : Byte := if r = 7 then s.memRead (s.reg 7) else s.reg 7

theorem popBase_sp (s : State) : s.popBase 7 = s.memRead (s.reg 7) := rfl

theorem popBase_of_ne (s : State) {r : RegIdx} (hr : r ≠ 7) : s.popBase r = s.reg 7 := if_neg hr

/-- POP's increment is that of its base. -/
theorem popIncrement_eq_popBase (r : RegIdx) (s : State) : popIncrement r s = (s.popBase r).toNat + 1 := rfl

/-- The increment would be 256 exactly where the byte it steps is 255 (44_stack.md R163). -/
theorem popIncrement_eq_256_iff (r : RegIdx) (s : State) : popIncrement r s = 256 ↔ s.popBase r = 255 := by
  rw [popIncrement_eq_popBase]
  bv_omega

/-- The byte POP writes to the stack pointer is the successor of its base. -/
theorem ofNat_popIncrement (r : RegIdx) (s : State) : BitVec.ofNat 8 (popIncrement r s) = s.popBase r + 1 := by
  rw [popIncrement_eq_popBase]
  bv_omega

/-- The state a completed POP of register `r` leaves (44_stack.md R162). -/
def State.popped (s : State) (r : RegIdx) : State :=
  ((s.setReg r (s.memRead (s.reg 7))).setReg 7 (s.popBase r + 1)).advance 2

theorem exec_pop_eq (s : State) (r : RegIdx) : exec (.pop (regByte r)) s = .next (popReg r s) :=
  withReg_regByte ..

/-- POP of a register completes where the byte it increments is not 255. -/
theorem exec_pop {s : State} (r : RegIdx) (h : s.popBase r ≠ 255) : exec (.pop (regByte r)) s = .next (s.popped r) := by
  rcases popReg_cases r s with ⟨hover, -⟩ | ⟨-, hp⟩
  · exact absurd ((popIncrement_eq_256_iff r s).mp hover) h
  · rw [exec_pop_eq, hp, ofNat_popIncrement]
    rfl

/-- POP of a register raises where the byte it increments is 255 (44_stack.md R163). -/
theorem exec_pop_raises {s : State} (r : RegIdx) (h : s.popBase r = 255) :
    exec (.pop (regByte r)) s = .next (s.raise .stackOutOfRange 255) := by
  have hover := (popIncrement_eq_256_iff r s).mpr h
  rcases popReg_cases r s with ⟨-, hp⟩ | ⟨hle, -⟩
  · rw [exec_pop_eq, hp]
  · omega

/-- After POP the stack pointer is the increment. -/
theorem popped_reg_sp (s : State) (r : RegIdx) : (s.popped r).reg 7 = s.popBase r + 1 :=
  setReg_reg_same _ 7 _

/-- After POP its register holds the loaded byte, and every other but the stack pointer is as before. -/
theorem popped_reg_of_ne_sp (s : State) (r : RegIdx) {p : RegIdx} (hp : p ≠ 7) :
    (s.popped r).reg p = if p = r then s.memRead (s.reg 7) else s.reg p :=
  (setReg_reg_ne _ 7 p _ hp).trans (setReg_reg s r p _)

/-- POP steps the byte it increments by one. -/
theorem popped_sp_toNat {s : State} (r : RegIdx) (h : s.popBase r ≠ 255) :
    ((s.popped r).reg 7).toNat = (s.popBase r).toNat + 1 := by
  rw [popped_reg_sp, toNat_add_one h]

/-- POP changes no cell. -/
theorem popped_memRead (s : State) (r : RegIdx) (x : Byte) : (s.popped r).memRead x = s.memRead x := rfl

/-- Settles O24: POP of a register leaves `State.popped` or raises, by the byte it increments. -/
theorem popLoadsFromTheStackPointer : Obligations.PopLoadsFromTheStackPointer := by
  refine ⟨decodeTriple_pop, fun s r hr hsp => ?_, fun s hv => ?_, fun s r h => exec_pop_raises r ?_,
    fun s a ha => withReg_raises a s _ ha, topOfMemoryFaults 0x46⟩
  · have hbase : s.popBase r = s.reg 7 := popBase_of_ne s hr
    have hok : s.popBase r ≠ 255 := hbase ▸ hsp
    refine ⟨s.popped r, exec_pop r hok, ?_, ?_, fun p hpr hp => ?_, rfl⟩
    · rw [popped_reg_of_ne_sp s r hr, if_pos rfl]
    · rw [popped_sp_toNat r hok, hbase]
    · rw [popped_reg_of_ne_sp s r hp, if_neg hpr]
  · refine ⟨s.popped 7, exec_pop 7 hv, popped_sp_toNat 7 hv, fun p hp => ?_, rfl⟩
    rw [popped_reg_of_ne_sp s 7 hp, if_neg hp]
  · rcases h with ⟨hr, hsp⟩ | ⟨rfl, hv⟩
    · rw [popBase_of_ne s hr, hsp]
    · exact hv

/-! #### The bounds -/

/-- Settles O30: each instruction raises exactly at its bound, and otherwise steps without wrapping. -/
theorem stackBoundsAreChecked : Obligations.StackBoundsAreChecked := by
  refine ⟨fun s r => ?_, fun s r => ?_⟩
  · by_cases h : s.reg 7 = 0
    · exact .inl ⟨exec_push_raises r h, h⟩
    · refine .inr ⟨h, s.pushed r, exec_push r h, ?_, rfl⟩
      rw [pushed_sp_toNat r h]
      bv_omega
  · by_cases h : s.popBase r = 255
    · exact .inl ⟨exec_pop_raises r h, h⟩
    · exact .inr ⟨h, s.popped r, exec_pop r h, popped_sp_toNat r h, rfl⟩

/-! #### PUSH then POP -/

section RoundTrip

variable {s : State} {r q : RegIdx} (hqr : q = 7 ↔ r = 7)
include hqr

/-- After PUSH of R7 into R7, or of another register into another, POP steps the decremented stack pointer. -/
theorem popBase_pushed : (s.pushed r).popBase q = s.reg 7 - 1 := by
  by_cases hq : q = 7
  · obtain rfl := hq
    rw [popBase_sp, pushed_reg_sp, pushed_memRead_same, if_pos (hqr.mp rfl)]
  · rw [popBase_of_ne _ hq, pushed_reg_sp]

/-- The POP of the pair cannot fault (44_stack.md R164). -/
theorem exec_pop_pushed (hs : s.reg 7 ≠ 0) : exec (.pop (regByte q)) (s.pushed r) = .next ((s.pushed r).popped q) := by
  refine exec_pop q ?_
  rw [popBase_pushed hqr]
  bv_omega

/-- PUSH then POP copies the pushed register and restores every other, the stack pointer included (44_stack.md R164). -/
theorem pushed_popped_reg (p : RegIdx) : ((s.pushed r).popped q).reg p = if p = q then s.reg r else s.reg p := by
  by_cases hp : p = 7
  · obtain rfl := hp
    rw [popped_reg_sp, popBase_pushed hqr, BitVec.sub_add_cancel]
    split
    · next hq => rw [hqr.mp hq.symm]
    · rfl
  · rw [popped_reg_of_ne_sp _ q hp, pushed_reg_sp, pushed_memRead_same, pushed_reg_ne s r hp]
    split
    · next hq => rw [if_neg fun hr => hp (hq.trans (hqr.mpr hr))]
    · rfl

end RoundTrip

/-- The second of two pushes does not overwrite the cell of the first. -/
theorem pushed_pushed_memRead_first (s : State) {r : RegIdx} (q : RegIdx) (hr : r ≠ 7) :
    ((s.pushed r).pushed q).memRead (s.reg 7 - 1) = s.reg r := by
  have hne : s.reg 7 - 1 ≠ (s.pushed r).reg 7 - 1 := by
    rw [pushed_reg_sp]
    bv_omega
  rw [pushed_memRead_ne _ q hne, pushed_memRead_same, if_neg hr]

/-- Two pushes, then two pops, give the two values in reverse order and restore the stack pointer (44_stack.md R164): the
inner pair copies `q` to `p`, and the last POP finds the stack pointer and the cell that the first PUSH left. -/
theorem push_push_pop_pop (s : State) {r q p n : RegIdx} (hs : 2 ≤ (s.reg 7).toNat) (hr : r ≠ 7) (hq : q ≠ 7)
    (hp : p ≠ 7) (hn : n ≠ 7) (hpn : p ≠ n) : ∃ t u v w,
      exec (.push (regByte r)) s = .next t ∧ exec (.push (regByte q)) t = .next u ∧
      exec (.pop (regByte p)) u = .next v ∧ exec (.pop (regByte n)) v = .next w ∧
      w.reg p = s.reg q ∧ w.reg n = s.reg r ∧ w.reg 7 = s.reg 7 := by
  have hsp : s.reg 7 ≠ 0 := by bv_omega
  have hpq : p = 7 ↔ q = 7 := iff_of_false hp hq
  have hsp₁ : (s.pushed r).reg 7 ≠ 0 := by
    rw [pushed_reg_sp]
    bv_omega
  have hv : (((s.pushed r).pushed q).popped p).reg 7 = s.reg 7 - 1 := by
    rw [pushed_popped_reg hpq, if_neg (Ne.symm hp), pushed_reg_sp]
  have hbase : (((s.pushed r).pushed q).popped p).popBase n = s.reg 7 - 1 := (popBase_of_ne _ hn).trans hv
  refine ⟨_, _, _, _, exec_push r hsp, exec_push q hsp₁, exec_pop_pushed hpq hsp₁, exec_pop n ?_, ?_, ?_, ?_⟩
  · rw [hbase]
    bv_omega
  · rw [popped_reg_of_ne_sp _ n hp, if_neg hpn, pushed_popped_reg hpq, if_pos rfl, pushed_reg_ne s r hq]
  · rw [popped_reg_of_ne_sp _ n hn, if_pos rfl, hv, popped_memRead, pushed_pushed_memRead_first s q hr]
  · rw [popped_reg_sp, hbase, BitVec.sub_add_cancel]

/-- Settles O40: PUSH then POP is the copy of a register, which into the same register changes none, and POP leaves memory
as PUSH left it. -/
theorem pushThenPopIsARoundTrip : Obligations.PushThenPopIsARoundTrip := by
  refine ⟨fun s r hs => ⟨_, _, exec_push r hs, exec_pop_pushed Iff.rfl hs, fun p => ?_, pushed_memRead_same s r,
      fun _ => pushed_memRead_ne s r⟩,
    fun s r q hs _ hr hq => ⟨_, _, exec_push r hs, exec_pop_pushed (iff_of_false hq hr) hs,
      pushed_popped_reg (iff_of_false hq hr)⟩,
    fun s _ _ _ _ hs hr hq hp hn hpn => push_push_pop_pop s hs hr hq hp hn hpn⟩
  rw [pushed_popped_reg Iff.rfl]
  split
  · next hp => rw [hp]
  · rfl

end Sys2Proof.Machine

/-! ### Proofs about UNRECOGNIZED (45_unrecognized.md) -/

namespace Sys2Proof

/-- The decoder answers UNRECOGNIZED for the opcode bytes of no other row, and only for them: its answer is well-formed
(30_encoding.md R88). -/
theorem decodeTriple_eq_unrecognized_iff (op a b : Byte) :
    decodeTriple op a b = .unrecognized op ↔ op ∉ recognizedOpcodes := by
  refine ⟨fun h => ?_, decodeTriple_unrecognized op a b⟩
  have hwf : (Instr.unrecognized op).wf = true := h ▸ decodeTriple_wf op a b
  simpa [Instr.wf] using hwf

/-- The ranges between the seven recognised opcode bytes (30_encoding.md R88). -/
theorem notMem_recognizedOpcodes_iff_ranges (op : Byte) : op ∉ recognizedOpcodes ↔
    op.toNat = 0x00 ∨ (0x02 ≤ op.toNat ∧ op.toNat ≤ 0x44) ∨ (0x48 ≤ op.toNat ∧ op.toNat ≤ 0x81) ∨
      (0x83 ≤ op.toNat ∧ op.toNat ≤ 0x9F) ∨ op.toNat = 0xA1 ∨ 0xA3 ≤ op.toNat := by
  rw [mem_recognizedOpcodes]
  bv_omega

end Sys2Proof

namespace Sys2Proof.Machine

open Sys2Proof

/-- Settles O25: the decoder's catch-all, its ranges, an arm that reports the pc and skips one byte, and no event at the top of memory. -/
theorem unrecognizedReportsThePc : Obligations.UnrecognizedReportsThePc :=
  ⟨decodeTriple_eq_unrecognized_iff, notMem_recognizedOpcodes_iff_ranges, fun _ _ => rfl,
    fun op _ => topOfMemoryFaults op⟩

end Sys2Proof.Machine

/-! ### Proofs about faults (60_exceptions.md): the condition a step reports, the precise fault, the latch -/

namespace Sys2Proof.Machine

open Sys2Proof

/-! #### How a condition is reported -/

/-- `t` reports the condition `o` of a step from `s` as its row of 60_exceptions.md R182 says: a fatal one in the latch and
nowhere else, an unrecognised opcode in the `diag` history, none in neither. -/
def State.Reports (s : State) (o : Option (Condition × Nat)) (t : State) : Prop :=
  match o with
  | none => t.fault = none ∧ t.diag = s.diag
  | some (.unrecognizedOpcode, p) => t.fault = none ∧ t.diag = s.diag ++ [p]
  | some (c, info) => ∃ cause : FaultCause, cause.condition = c ∧ t = { s with fault := some ⟨cause, s.pc, info⟩ }

/-- Taking a fault reports the row its cause stands for. -/
theorem raise_reports (s : State) (cause : FaultCause) (info : Nat) :
    s.Reports (some (cause.condition, info)) (s.raise cause info) := by
  cases cause <;> exact ⟨_, rfl, rfl⟩

/-- Distinct causes stand for distinct rows. -/
theorem condition_injective : Function.Injective FaultCause.condition := by
  intro c d h
  cases c <;> cases d <;> cases h <;> rfl

/-- A reported condition that leaves the latch set is the row of the cause latched, and nothing but the latch changed. -/
theorem State.Reports.exists_cause {s t : State} {o : Option (Condition × Nat)} (h : s.Reports o t)
    (hf : t.fault ≠ none) : ∃ cause info, o = some (FaultCause.condition cause, info) ∧ t = s.raise cause info := by
  rcases o with _ | ⟨c, info⟩
  · exact absurd h.1 hf
  · cases c with
    | unrecognizedOpcode => exact absurd h.1 hf
    | _ =>
      obtain ⟨cause, hc, ht⟩ := h
      exact ⟨cause, info, by rw [hc], ht⟩

/-! #### The chain of 60_exceptions.md R188, opcode by opcode -/

section Chain

variable {s : State} (hp : s.pc ≤ 253)
include hp

theorem reportedCondition_unrecognized (hop : s.fetchByte 0 ∉ recognizedOpcodes) :
    reportedCondition s = some (.unrecognizedOpcode, s.pc) := by
  simp [reportedCondition, hp, hop]

theorem reportedCondition_halt (hop : s.fetchByte 0 = 0x01) : reportedCondition s = none := by
  simp [reportedCondition, hp, hop, recognizedOpcodes]

theorem reportedCondition_oneOperand (hop : s.fetchByte 0 = 0x82 ∨ s.fetchByte 0 = 0x47) : reportedCondition s =
    if 7 < (s.fetchByte 1).toNat then some (.registerIndexOutOfRange, (s.fetchByte 1).toNat) else none := by
  rcases hop with hop | hop <;> simp [reportedCondition, hp, hop, recognizedOpcodes]

theorem reportedCondition_twoOperands (hop : s.fetchByte 0 = 0xA0 ∨ s.fetchByte 0 = 0xA2) : reportedCondition s =
    if 7 < (s.fetchByte 1).toNat then some (.registerIndexOutOfRange, (s.fetchByte 1).toNat)
    else if 7 < (s.fetchByte 2).toNat then some (.registerIndexOutOfRange, (s.fetchByte 2).toNat) else none := by
  rcases hop with hop | hop <;> simp [reportedCondition, hp, hop, recognizedOpcodes]

theorem reportedCondition_push (hop : s.fetchByte 0 = 0x45) : reportedCondition s =
    if 7 < (s.fetchByte 1).toNat then some (.registerIndexOutOfRange, (s.fetchByte 1).toNat)
    else if s.reg 7 = 0 then some (.stackOutOfRange, 0) else none := by
  simp [reportedCondition, hp, hop, recognizedOpcodes]

theorem reportedCondition_pop (hop : s.fetchByte 0 = 0x46) : reportedCondition s =
    if 7 < (s.fetchByte 1).toNat then some (.registerIndexOutOfRange, (s.fetchByte 1).toNat)
    else if (if s.fetchByte 1 = 7 then s.memRead (s.reg 7) else s.reg 7) = 255 then some (.stackOutOfRange, 255)
    else none := by
  simp [reportedCondition, hp, hop, recognizedOpcodes]

end Chain

/-! #### What each arm reports -/

/-- An operand check reports a byte above 7; past it, the arm reports what it does with the register (30_encoding.md R90). -/
theorem withReg_reports {a : Byte} {s : State} {go : RegIdx → Result} {o : Option (Condition × Nat)}
    (h : ∀ r, a = regByte r → ∃ t, go r = .next t ∧ s.Reports o t) :
    ∃ t, withReg a s go = .next t ∧
      s.Reports (if 7 < a.toNat then some (.registerIndexOutOfRange, a.toNat) else o) t := by
  rcases withReg_cases a s go with ⟨r, rfl, hgo⟩ | ⟨ha, hraise⟩
  · have hle : ¬ 7 < (regByte r).toNat := by rw [regByte_toNat]; omega
    rw [hgo, if_neg hle]
    exact h r rfl
  · rw [if_pos ha]
    exact ⟨_, hraise, raise_reports s .registerIndexOutOfRange a.toNat⟩

/-- An ALU arm reports its operands, A before B, and nothing else (30_encoding.md R90, 43_alu.md R145). -/
theorem alu_reports {s : State} (hf : s.fault = none) (op : AluOp) (a b : Byte) :
    ∃ t, withRegs a b s (fun ra rb => .next ((s.alu op ra rb).advance 3)) = .next t ∧
      s.Reports (if 7 < a.toNat then some (.registerIndexOutOfRange, a.toNat)
        else if 7 < b.toNat then some (.registerIndexOutOfRange, b.toNat) else none) t :=
  withReg_reports fun _ _ => withReg_reports fun _ _ => ⟨_, rfl, hf, rfl⟩

/-- PUSH reports its operand, then the stack pointer 0 (44_stack.md R163). -/
theorem execPush_reports {s : State} (hf : s.fault = none) (a : Byte) :
    ∃ t, execPush a s = .next t ∧
      s.Reports (if 7 < a.toNat then some (.registerIndexOutOfRange, a.toNat)
        else if s.reg 7 = 0 then some (.stackOutOfRange, 0) else none) t := by
  refine withReg_reports fun r _ => ⟨_, rfl, ?_⟩
  rcases pushReg_cases r s with ⟨hz, hpush⟩ | ⟨hnz, hpush⟩ <;> rw [hpush]
  · rw [if_pos (show s.reg 7 = 0 from hz)]
    exact raise_reports s .stackOutOfRange 0
  · rw [if_neg (show s.reg 7 ≠ 0 from hnz)]
    exact ⟨hf, rfl⟩

/-- POP reports its operand, then the byte 255 to increment (44_stack.md R163). -/
theorem execPop_reports {s : State} (hf : s.fault = none) (a : Byte) :
    ∃ t, execPop a s = .next t ∧
      s.Reports (if 7 < a.toNat then some (.registerIndexOutOfRange, a.toNat)
        else if (if a = 7 then s.memRead (s.reg 7) else s.reg 7) = 255 then some (.stackOutOfRange, 255) else none) t := by
  refine withReg_reports fun r hr => ⟨_, rfl, ?_⟩
  have hbase : (if a = 7 then s.memRead (s.reg 7) else s.reg 7) = s.popBase r :=
    if_congr (hr ▸ ⟨regByte_inj (q := 7), congrArg regByte⟩) rfl rfl
  simp only [hbase, ← popIncrement_eq_256_iff]
  rcases popReg_cases r s with ⟨hover, hpop⟩ | ⟨hle, hpop⟩
  · rw [hpop, if_pos hover]
    exact raise_reports s .stackOutOfRange 255
  · rw [hpop, if_neg (by omega)]
    exact ⟨hf, rfl⟩

/-! #### What a step reports -/

/-- With the fetch in range, the fetched instruction's arm reports what the chain says. -/
theorem exec_fetched_reports {s : State} (hf : s.fault = none) (hp : s.pc ≤ 253) :
    ∃ t, exec s.fetched s = .next t ∧ s.Reports (reportedCondition s) t := by
  unfold State.fetched
  rcases decodeTriple_cases (s.fetchByte 0) (s.fetchByte 1) (s.fetchByte 2) with
    ⟨hop, h⟩ | ⟨hop, h⟩ | ⟨hop, h⟩ | ⟨hop, h⟩ | ⟨hop, h⟩ | ⟨hop, h⟩ | ⟨hop, h⟩ | ⟨hop, h⟩ <;> rw [h]
  · rw [reportedCondition_halt hp hop]
    exact ⟨_, rfl, hf, rfl⟩
  · rw [reportedCondition_oneOperand hp (.inl hop)]
    exact withReg_reports fun _ _ => ⟨_, rfl, hf, rfl⟩
  · rw [reportedCondition_oneOperand hp (.inr hop)]
    exact withReg_reports fun _ _ => ⟨_, rfl, hf, rfl⟩
  · rw [reportedCondition_twoOperands hp (.inl hop)]
    exact alu_reports hf .add _ _
  · rw [reportedCondition_twoOperands hp (.inr hop)]
    exact alu_reports hf .multiply _ _
  · rw [reportedCondition_push hp hop]
    exact execPush_reports hf _
  · rw [reportedCondition_pop hp hop]
    exact execPop_reports hf _
  · rw [reportedCondition_unrecognized hp hop]
    exact ⟨_, rfl, hf, rfl⟩

/-- A step of a running core reports the first condition of the chain: the fetch range is looked at before memory is read. -/
theorem step_reports {s : State} (hm : s.mayStep = true) :
    ∃ t, step s = .next t ∧ s.Reports (reportedCondition s) t := by
  rcases Nat.lt_or_ge 253 s.pc with hp | hp
  · rw [step_of_fetchOutOfRange hm hp, reportedCondition, if_pos hp]
    exact ⟨_, rfl, raise_reports s .fetchOutOfRange s.pc⟩
  · rw [step_of_fetchInRange hm hp]
    exact exec_fetched_reports ((mayStep_iff s).mp hm).2 hp

/-- Settles O32: `State.Reports` is the obligation's way of reporting, and a step reports the chain's condition. -/
theorem firstConditionIsReported : Obligations.FirstConditionIsReported :=
  fun s hr hf => step_reports ((mayStep_iff s).mpr ⟨hr, hf⟩)

/-! #### The info of a fault, and the latch -/

/-- The fatal conditions of the chain, with the info of each (60_exceptions.md R182, R184 to R186). -/
theorem reportedCondition_fault {s : State} {cause : FaultCause} {info : Nat}
    (h : reportedCondition s = some (cause.condition, info)) :
    (cause = .fetchOutOfRange ∧ 253 < s.pc ∧ info = s.pc) ∨
    (cause = .registerIndexOutOfRange ∧ 8 ≤ info ∧ info ≤ 255 ∧
      (info = (s.fetchByte 1).toNat ∨ info = (s.fetchByte 2).toNat)) ∨
    (cause = .stackOutOfRange ∧ s.fetchByte 0 = 0x45 ∧ info = 0) ∨
    (cause = .stackOutOfRange ∧ s.fetchByte 0 = 0x46 ∧ info = 255) := by
  have hcause (c : FaultCause) {n : Nat} (he : some (c.condition, n) = some (cause.condition, info)) :
      cause = c ∧ info = n := by
    obtain ⟨hc, hn⟩ := Prod.mk.inj (Option.some.inj he)
    exact ⟨(condition_injective hc).symm, hn.symm⟩
  dsimp only [reportedCondition] at h
  generalize (if s.fetchByte 1 = 7 then s.memRead (s.reg 7) else s.reg 7) = base at h
  split at h
  · next hp =>
    obtain ⟨rfl, rfl⟩ := hcause .fetchOutOfRange h
    exact .inl ⟨rfl, hp, rfl⟩
  split at h
  · cases cause <;> cases h
  split at h
  · next ha =>
    obtain ⟨rfl, rfl⟩ := hcause .registerIndexOutOfRange h
    exact .inr (.inl ⟨rfl, ha.2, Nat.le_of_lt_succ (BitVec.isLt _), .inl rfl⟩)
  split at h
  · next hb =>
    obtain ⟨rfl, rfl⟩ := hcause .registerIndexOutOfRange h
    exact .inr (.inl ⟨rfl, hb.2, Nat.le_of_lt_succ (BitVec.isLt _), .inr rfl⟩)
  split at h
  · next hpush =>
    obtain ⟨rfl, rfl⟩ := hcause .stackOutOfRange h
    exact .inr (.inr (.inl ⟨rfl, hpush.1, rfl⟩))
  split at h
  · next hpop =>
    obtain ⟨rfl, rfl⟩ := hcause .stackOutOfRange h
    exact .inr (.inr (.inr ⟨rfl, hpop.1, rfl⟩))
  · cases h

/-- No step follows a faulted state (40_execution_cycle.md R118). -/
theorem step_ne_next_of_fault {s : State} {r : FaultRecord} (h : s.fault = some r) (u : State) : step s ≠ .next u := by
  rw [endedCoreTakesNoStep.1 s r h]
  exact nofun

/-- Settles O31: the latch set is the condition the step reported, whose info the chain gives, and no step follows it. -/
theorem faultsArePrecise : Obligations.FaultsArePrecise := by
  intro s t h hf
  obtain ⟨u, hu, hrep⟩ := step_reports (step_next h).1
  obtain rfl := Host.Outcome.next.inj (hu.symm.trans h)
  obtain ⟨cause, info, hc, rfl⟩ := hrep.exists_cause hf
  exact ⟨⟨⟨cause, s.pc, info⟩, rfl, rfl, reportedCondition_fault hc⟩, step_ne_next_of_fault (raise_fault s cause info)⟩

/-- Settles O33: a set latch fails the loop's test, and the reset state's latch is empty. -/
theorem faultLatchHoldsUntilReset : Obligations.FaultLatchHoldsUntilReset := by
  refine fun s r h => ⟨step_ne_next_of_fault h, fun k => run_stopped k s ?_, rfl⟩
  rw [State.mayStep, h]
  exact Bool.and_false _

end Sys2Proof.Machine

/-! ### Proofs about reset (70_reset_and_hazards.md R210) -/

namespace Sys2Proof.Machine

open Sys2Proof

/-- Of the registers, x[7] alone is not 0 after reset: it is the stack pointer, at `SP_RESET` (10_state.md R33). -/
theorem reset_reg : ∀ r : RegIdx, State.reset.reg r = if r = 7 then 0xF4 else 0 := by decide

/-- No cell is listed after reset, and an unlisted cell reads as 0 (10_state.md R33). -/
theorem reset_memRead (a : Byte) : State.reset.memRead a = 0 := rfl

/-- Settles O1: the reset input leads to the reset state from anywhere, whose registers and cells are read above and whose
other fields are stated outright. -/
theorem resetEstablishesEveryValue : Obligations.ResetEstablishesEveryValue :=
  fun _ => ⟨reset_reg, rfl, rfl, rfl, reset_memRead, rfl, rfl, rfl, rfl⟩

end Sys2Proof.Machine
